-- ==== Sys2Proof/Word.lean ====
section
/-! DEFINITION. The word types of the block and their plainest conversions (00_scope.md R7, R8, R9). -/

namespace Sys2Proof

/-- An 8-bit value: a general register, a timer, a memory byte (R7 `REGW`, `TIMERW`). -/
abbrev Byte := BitVec 8

/-- A 16-bit value: an instruction word, the PC, the index register I, a return address (R7 `PCW`, `IW`). -/
abbrev Word := BitVec 16

/-- A 4-bit field of an instruction word (R8). -/
abbrev Nibble := BitVec 4

/-- The 12-bit address immediate `nnn` (R81). -/
abbrev Imm12 := BitVec 12

/-- A general register by its index 0..15; VF is register 15 (R10, R21, R23). -/
abbrev Reg := Fin 16

/-- `VF`, the block's only flag (R10, R26). -/
abbrev vf : Reg := 15

/-- `zext_16(v)` (R9). -/
abbrev zext16 {w : Nat} (v : BitVec w) : Word := v.setWidth 16

end Sys2Proof
end

