-- ==== Sys2Proof/Syntax.lean ====
section
/-! DEFINITION. The 35 instructions, one constructor per row of spec/opcode_table.json (30_encoding.md R84). Operands
are the fields of R81 the row has: `x` and `y` register indices, `nn` and `nnn` immediates, `n` a count 0..15. -/

namespace Sys2Proof

inductive Instr
  /-- `0nnn` (nnn not 0E0, 0EE), SYS nnn: R110. -/
  | sys (nnn : Imm12)
  /-- `00E0`, CLS: R100. -/
  | cls
  /-- `00EE`, RET: R111. -/
  | ret
  /-- `1nnn`, JP nnn: R112. -/
  | jp (nnn : Imm12)
  /-- `2nnn`, CALL nnn: R113. -/
  | call (nnn : Imm12)
  /-- `3xnn`, SE Vx, nn: R114. -/
  | seImm (x : Reg) (nn : Byte)
  /-- `4xnn`, SNE Vx, nn: R115. -/
  | sneImm (x : Reg) (nn : Byte)
  /-- `5xy0`, SE Vx, Vy: R116. -/
  | seReg (x y : Reg)
  /-- `6xnn`, LD Vx, nn: R130. -/
  | ldImm (x : Reg) (nn : Byte)
  /-- `7xnn`, ADD Vx, nn: R131. -/
  | addImm (x : Reg) (nn : Byte)
  /-- `8xy0`, LD Vx, Vy: R132. -/
  | ldReg (x y : Reg)
  /-- `8xy1`, OR Vx, Vy: R133. -/
  | orReg (x y : Reg)
  /-- `8xy2`, AND Vx, Vy: R134. -/
  | andReg (x y : Reg)
  /-- `8xy3`, XOR Vx, Vy: R135. -/
  | xorReg (x y : Reg)
  /-- `8xy4`, ADD Vx, Vy: R136. -/
  | addReg (x y : Reg)
  /-- `8xy5`, SUB Vx, Vy: R137. -/
  | subReg (x y : Reg)
  /-- `8xy6`, SHR Vx: R138. `y` is encoded and not read. -/
  | shr (x y : Reg)
  /-- `8xy7`, SUBN Vx, Vy: R139. -/
  | subnReg (x y : Reg)
  /-- `8xyE`, SHL Vx: R140. `y` is encoded and not read. -/
  | shl (x y : Reg)
  /-- `9xy0`, SNE Vx, Vy: R117. -/
  | sneReg (x y : Reg)
  /-- `Annn`, LD I, nnn: R160. -/
  | ldI (nnn : Imm12)
  /-- `Bnnn`, JP V0, nnn: R118. -/
  | jpV0 (nnn : Imm12)
  /-- `Cxnn`, RND Vx, nn: R141. -/
  | rnd (x : Reg) (nn : Byte)
  /-- `Dxyn`, DRW Vx, Vy, n: R101. -/
  | drw (x y : Reg) (n : Fin 16)
  /-- `Ex9E`, SKP Vx: R180. -/
  | skp (x : Reg)
  /-- `ExA1`, SKNP Vx: R181. -/
  | sknp (x : Reg)
  /-- `Fx07`, LD Vx, DT: R183. -/
  | ldVxDt (x : Reg)
  /-- `Fx0A`, LD Vx, K: R182. -/
  | ldVxK (x : Reg)
  /-- `Fx15`, LD DT, Vx: R184. -/
  | ldDtVx (x : Reg)
  /-- `Fx18`, LD ST, Vx: R185. -/
  | ldStVx (x : Reg)
  /-- `Fx1E`, ADD I, Vx: R161. -/
  | addI (x : Reg)
  /-- `Fx29`, LD F, Vx: R162. -/
  | ldF (x : Reg)
  /-- `Fx33`, LD B, Vx: R163. -/
  | ldB (x : Reg)
  /-- `Fx55`, LD [I], Vx: R164. -/
  | ldMemVx (x : Reg)
  /-- `Fx65`, LD Vx, [I]: R165. -/
  | ldVxMem (x : Reg)
  deriving DecidableEq, Repr

end Sys2Proof
end

