-- ==== Sys2Proof/Decode.lean ====
section
/-! DEFINITION. The instruction format, the decoder and the encoder (30_encoding.md R80 to R88), written from the
patterns of R84 and from nothing else. Decoding never fails on a word: it answers an instruction or `none`, which
stands for "matches no row" (R83, R86). -/

namespace Sys2Proof

/-- The six fields of a word (R81). -/
structure Fields where
  op0 : Nibble
  x : Nibble
  y : Nibble
  n : Nibble
  nn : Byte
  nnn : Imm12
  deriving DecidableEq, Repr

/-- Decoding into fields is total and pure (R81, R83). -/
def fieldsOf (w : Word) : Fields where
  op0 := w.extractLsb' 12 4
  x := w.extractLsb' 8 4
  y := w.extractLsb' 4 4
  n := w.extractLsb' 0 4
  nn := w.extractLsb' 0 8
  nnn := w.extractLsb' 0 12

/-- The register a 4-bit field names (R23). -/
def regOfNibble (b : Nibble) : Reg := ⟨b.toNat, b.isLt⟩

/-- The field of a register index or of the count `n`. -/
def nibbleOfFin (r : Fin 16) : Nibble := BitVec.ofNat 4 r.val

/-- Rows `8xyN`: the low nibble selects (R84 rows 11 to 19; the rest is unknown, R86, D8). -/
def decodeGroup8 (x y : Reg) (n : Nat) : Option Instr :=
  match n with
  | 0x0 => some (.ldReg x y)
  | 0x1 => some (.orReg x y)
  | 0x2 => some (.andReg x y)
  | 0x3 => some (.xorReg x y)
  | 0x4 => some (.addReg x y)
  | 0x5 => some (.subReg x y)
  | 0x6 => some (.shr x y)
  | 0x7 => some (.subnReg x y)
  | 0xE => some (.shl x y)
  | _ => none

/-- Rows `ExNN`: the low byte selects (R84 rows 25, 26). -/
def decodeGroupE (x : Reg) (nn : Nat) : Option Instr :=
  match nn with
  | 0x9E => some (.skp x)
  | 0xA1 => some (.sknp x)
  | _ => none

/-- Rows `FxNN`: the low byte selects (R84 rows 27 to 35). -/
def decodeGroupF (x : Reg) (nn : Nat) : Option Instr :=
  match nn with
  | 0x07 => some (.ldVxDt x)
  | 0x0A => some (.ldVxK x)
  | 0x15 => some (.ldDtVx x)
  | 0x18 => some (.ldStVx x)
  | 0x1E => some (.addI x)
  | 0x29 => some (.ldF x)
  | 0x33 => some (.ldB x)
  | 0x55 => some (.ldMemVx x)
  | 0x65 => some (.ldVxMem x)
  | _ => none

/-- Rows `0nnn`: 00E0 and 00EE are tried before SYS (R85). -/
def decodeGroup0 (nnn : Imm12) : Instr :=
  if nnn = 0x0E0 then .cls else if nnn = 0x0EE then .ret else .sys nnn

/-- The row a word selects, with its operands; `none` for an unknown opcode (R84, R85, R86). -/
def decodeWord (w : Word) : Option Instr :=
  let f := fieldsOf w
  let x := regOfNibble f.x
  let y := regOfNibble f.y
  match f.op0.toNat with
  | 0x0 => some (decodeGroup0 f.nnn)
  | 0x1 => some (.jp f.nnn)
  | 0x2 => some (.call f.nnn)
  | 0x3 => some (.seImm x f.nn)
  | 0x4 => some (.sneImm x f.nn)
  | 0x5 => if f.n = 0 then some (.seReg x y) else none
  | 0x6 => some (.ldImm x f.nn)
  | 0x7 => some (.addImm x f.nn)
  | 0x8 => decodeGroup8 x y f.n.toNat
  | 0x9 => if f.n = 0 then some (.sneReg x y) else none
  | 0xA => some (.ldI f.nnn)
  | 0xB => some (.jpV0 f.nnn)
  | 0xC => some (.rnd x f.nn)
  | 0xD => some (.drw x y (regOfNibble f.n))
  | 0xE => decodeGroupE x f.nn.toNat
  | 0xF => decodeGroupF x f.nn.toNat
  | _ => none

/-- The word of two consecutive bytes: the byte at the lower address is the high half (R65, R68). -/
def wordOfBytes (hi lo : Byte) : Word := hi ++ lo

/-- The byte of a word that lies at the lower address. -/
def highByte (w : Word) : Byte := w.extractLsb' 8 8

/-- The byte of a word that lies at the higher address. -/
def lowByte (w : Word) : Byte := w.extractLsb' 0 8

/-- Why a byte string gives no instruction. -/
inductive DecodeError
  /-- Fewer than two bytes are left (a decoder always consumes exactly 2 bytes, R88). -/
  | truncated
  /-- The word matches no row (R86). -/
  | unknownOpcode (w : Word)
  deriving DecidableEq, Repr

/-- Decoding from a byte string: the instruction and the bytes after it, or the reason there is none. Total. -/
def decode : List Byte → Except DecodeError (Instr × List Byte)
  | hi :: lo :: rest =>
    match decodeWord (wordOfBytes hi lo) with
    | some i => .ok (i, rest)
    | none => .error (.unknownOpcode (wordOfBytes hi lo))
  | [_] => .error .truncated
  | [] => .error .truncated

/-! The encoder, from the same patterns. -/

/-- A word `op|nnn`. -/
def packNnn (op : Nibble) (nnn : Imm12) : Word := op ++ nnn

/-- A word `op|x|nn`. -/
def packXnn (op : Nibble) (x : Reg) (nn : Byte) : Word := op ++ nibbleOfFin x ++ nn

/-- A word `op|x|y|n`. -/
def packXyn (op : Nibble) (x y : Reg) (n : Nibble) : Word := op ++ nibbleOfFin x ++ nibbleOfFin y ++ n

/-- The word of an instruction (R84). -/
def encode : Instr → Word
  | .sys nnn => packNnn 0x0 nnn
  | .cls => 0x00E0
  | .ret => 0x00EE
  | .jp nnn => packNnn 0x1 nnn
  | .call nnn => packNnn 0x2 nnn
  | .seImm x nn => packXnn 0x3 x nn
  | .sneImm x nn => packXnn 0x4 x nn
  | .seReg x y => packXyn 0x5 x y 0x0
  | .ldImm x nn => packXnn 0x6 x nn
  | .addImm x nn => packXnn 0x7 x nn
  | .ldReg x y => packXyn 0x8 x y 0x0
  | .orReg x y => packXyn 0x8 x y 0x1
  | .andReg x y => packXyn 0x8 x y 0x2
  | .xorReg x y => packXyn 0x8 x y 0x3
  | .addReg x y => packXyn 0x8 x y 0x4
  | .subReg x y => packXyn 0x8 x y 0x5
  | .shr x y => packXyn 0x8 x y 0x6
  | .subnReg x y => packXyn 0x8 x y 0x7
  | .shl x y => packXyn 0x8 x y 0xE
  | .sneReg x y => packXyn 0x9 x y 0x0
  | .ldI nnn => packNnn 0xA nnn
  | .jpV0 nnn => packNnn 0xB nnn
  | .rnd x nn => packXnn 0xC x nn
  | .drw x y n => packXyn 0xD x y (nibbleOfFin n)
  | .skp x => packXnn 0xE x 0x9E
  | .sknp x => packXnn 0xE x 0xA1
  | .ldVxDt x => packXnn 0xF x 0x07
  | .ldVxK x => packXnn 0xF x 0x0A
  | .ldDtVx x => packXnn 0xF x 0x15
  | .ldStVx x => packXnn 0xF x 0x18
  | .addI x => packXnn 0xF x 0x1E
  | .ldF x => packXnn 0xF x 0x29
  | .ldB x => packXnn 0xF x 0x33
  | .ldMemVx x => packXnn 0xF x 0x55
  | .ldVxMem x => packXnn 0xF x 0x65

/-- The two bytes of an instruction in the order they lie in memory (R65). -/
def encodeBytes (i : Instr) : List Byte := [highByte (encode i), lowByte (encode i)]

/-- The instruction the decoder reads from an instruction whose bits are `w`, numbered as spec/opcode_table.json
numbers them: every instruction is one 16-bit word (R80), laid out as the hardware stores it, high byte first. -/
def decodeTableWord (_nbits w : Nat) : Option Instr :=
  let word : Word := BitVec.ofNat 16 w
  match decode [highByte word, lowByte word] with
  | .ok (i, _) => some i
  | .error _ => none

/-! The opcode map of R84 as data, beside the decoder: what the two say of each other is in the statements. -/

/-- One row of R84: a word matches it when `word &&& mask = value`. -/
structure OpcodeRow where
  mnemonic : String
  value : Word
  mask : Word
  deriving DecidableEq, Repr

def OpcodeRow.isMatch (r : OpcodeRow) (w : Word) : Bool := w &&& r.mask == r.value

/-- The rows of the control, display and immediate groups but SYS. -/
def opcodeRowsA : List OpcodeRow :=
  [ ⟨"CLS", 0x00E0, 0xFFFF⟩, ⟨"RET", 0x00EE, 0xFFFF⟩, ⟨"JP_nnn", 0x1000, 0xF000⟩, ⟨"CALL_nnn", 0x2000, 0xF000⟩,
    ⟨"SE_Vx__nn", 0x3000, 0xF000⟩, ⟨"SNE_Vx__nn", 0x4000, 0xF000⟩, ⟨"SE_Vx__Vy", 0x5000, 0xF00F⟩,
    ⟨"LD_Vx__nn", 0x6000, 0xF000⟩, ⟨"ADD_Vx__nn", 0x7000, 0xF000⟩ ]

/-- The rows of the register group. -/
def opcodeRowsB : List OpcodeRow :=
  [ ⟨"LD_Vx__Vy", 0x8000, 0xF00F⟩, ⟨"OR_Vx__Vy", 0x8001, 0xF00F⟩, ⟨"AND_Vx__Vy", 0x8002, 0xF00F⟩,
    ⟨"XOR_Vx__Vy", 0x8003, 0xF00F⟩, ⟨"ADD_Vx__Vy", 0x8004, 0xF00F⟩, ⟨"SUB_Vx__Vy", 0x8005, 0xF00F⟩,
    ⟨"SHR_Vx", 0x8006, 0xF00F⟩, ⟨"SUBN_Vx__Vy", 0x8007, 0xF00F⟩, ⟨"SHL_Vx", 0x800E, 0xF00F⟩,
    ⟨"SNE_Vx__Vy", 0x9000, 0xF00F⟩, ⟨"LD_I__nnn", 0xA000, 0xF000⟩, ⟨"JP_V0__nnn", 0xB000, 0xF000⟩,
    ⟨"RND_Vx__nn", 0xC000, 0xF000⟩, ⟨"DRW_Vx__Vy__n", 0xD000, 0xF000⟩ ]

/-- The rows selected by their low byte. -/
def opcodeRowsC : List OpcodeRow :=
  [ ⟨"SKP_Vx", 0xE09E, 0xF0FF⟩, ⟨"SKNP_Vx", 0xE0A1, 0xF0FF⟩, ⟨"LD_Vx__DT", 0xF007, 0xF0FF⟩,
    ⟨"LD_Vx__K", 0xF00A, 0xF0FF⟩, ⟨"LD_DT__Vx", 0xF015, 0xF0FF⟩, ⟨"LD_ST__Vx", 0xF018, 0xF0FF⟩,
    ⟨"ADD_I__Vx", 0xF01E, 0xF0FF⟩, ⟨"LD_F__Vx", 0xF029, 0xF0FF⟩, ⟨"LD_B__Vx", 0xF033, 0xF0FF⟩,
    ⟨"LD__I___Vx", 0xF055, 0xF0FF⟩, ⟨"LD_Vx___I", 0xF065, 0xF0FF⟩ ]

/-- The rows other than SYS: these are disjoint (R85). -/
def disjointRows : List OpcodeRow := opcodeRowsA ++ opcodeRowsB ++ opcodeRowsC

/-- The row tried after `00E0` and `00EE` (R85). -/
def sysRow : OpcodeRow := ⟨"SYS_nnn", 0x0000, 0xF000⟩

/-- All 35 rows in a match order of R85: the first row that matches is the word's. -/
def opcodeTable : List OpcodeRow := disjointRows ++ [sysRow]

/-- The row of R84 that a word selects (R85). -/
def matchingRow (w : Word) : Option OpcodeRow := opcodeTable.find? (fun r => r.isMatch w)

/-- The row of R84 an instruction belongs to, by its mnemonic in spec/opcode_table.json. -/
def mnemonicOf : Instr → String
  | .sys _ => "SYS_nnn"
  | .cls => "CLS"
  | .ret => "RET"
  | .jp _ => "JP_nnn"
  | .call _ => "CALL_nnn"
  | .seImm _ _ => "SE_Vx__nn"
  | .sneImm _ _ => "SNE_Vx__nn"
  | .seReg _ _ => "SE_Vx__Vy"
  | .ldImm _ _ => "LD_Vx__nn"
  | .addImm _ _ => "ADD_Vx__nn"
  | .ldReg _ _ => "LD_Vx__Vy"
  | .orReg _ _ => "OR_Vx__Vy"
  | .andReg _ _ => "AND_Vx__Vy"
  | .xorReg _ _ => "XOR_Vx__Vy"
  | .addReg _ _ => "ADD_Vx__Vy"
  | .subReg _ _ => "SUB_Vx__Vy"
  | .shr _ _ => "SHR_Vx"
  | .subnReg _ _ => "SUBN_Vx__Vy"
  | .shl _ _ => "SHL_Vx"
  | .sneReg _ _ => "SNE_Vx__Vy"
  | .ldI _ => "LD_I__nnn"
  | .jpV0 _ => "JP_V0__nnn"
  | .rnd _ _ => "RND_Vx__nn"
  | .drw _ _ _ => "DRW_Vx__Vy__n"
  | .skp _ => "SKP_Vx"
  | .sknp _ => "SKNP_Vx"
  | .ldVxDt _ => "LD_Vx__DT"
  | .ldVxK _ => "LD_Vx__K"
  | .ldDtVx _ => "LD_DT__Vx"
  | .ldStVx _ => "LD_ST__Vx"
  | .addI _ => "ADD_I__Vx"
  | .ldF _ => "LD_F__Vx"
  | .ldB _ => "LD_B__Vx"
  | .ldMemVx _ => "LD__I___Vx"
  | .ldVxMem _ => "LD_Vx___I"

/-! The assembly line of an instruction (R89; the mnemonics are general knowledge, G4: log 17). The word is normative. -/

/-- A hexadecimal digit, `0`..`F`. -/
def hexDigit (d : Nat) : Char := "0123456789ABCDEF".toList.getD d '0'

/-- A byte literal. -/
def byteLiteral (nn : Byte) : String := String.ofList ['0', 'x', hexDigit (nn.toNat / 16), hexDigit (nn.toNat % 16)]

/-- An address literal. -/
def addressLiteral (nnn : Imm12) : String :=
  String.ofList ['0', 'x', hexDigit (nnn.toNat / 256), hexDigit (nnn.toNat / 16 % 16), hexDigit (nnn.toNat % 16)]

/-- A nibble literal, in decimal as in R96's `DRW V0, V1, 15`. -/
def nibbleLiteral (n : Fin 16) : String :=
  String.ofList (if n.val < 10 then [hexDigit n.val] else ['1', hexDigit (n.val - 10)])

/-- A register, `V0`..`VF`. -/
def registerName (r : Reg) : String := String.ofList ['V', hexDigit r.val]

/-- A mnemonic with one operand. -/
def line1 (m a : String) : String := m ++ " " ++ a

/-- A mnemonic with two operands, the destination first. -/
def line2 (m a b : String) : String := m ++ " " ++ a ++ ", " ++ b

/-- One line of assembly for each instruction. -/
def assembly : Instr → String
  | .sys nnn => line1 "SYS" (addressLiteral nnn)
  | .cls => "CLS"
  | .ret => "RET"
  | .jp nnn => line1 "JP" (addressLiteral nnn)
  | .call nnn => line1 "CALL" (addressLiteral nnn)
  | .seImm x nn => line2 "SE" (registerName x) (byteLiteral nn)
  | .sneImm x nn => line2 "SNE" (registerName x) (byteLiteral nn)
  | .seReg x y => line2 "SE" (registerName x) (registerName y)
  | .ldImm x nn => line2 "LD" (registerName x) (byteLiteral nn)
  | .addImm x nn => line2 "ADD" (registerName x) (byteLiteral nn)
  | .ldReg x y => line2 "LD" (registerName x) (registerName y)
  | .orReg x y => line2 "OR" (registerName x) (registerName y)
  | .andReg x y => line2 "AND" (registerName x) (registerName y)
  | .xorReg x y => line2 "XOR" (registerName x) (registerName y)
  | .addReg x y => line2 "ADD" (registerName x) (registerName y)
  | .subReg x y => line2 "SUB" (registerName x) (registerName y)
  | .shr x _ => line1 "SHR" (registerName x)
  | .subnReg x y => line2 "SUBN" (registerName x) (registerName y)
  | .shl x _ => line1 "SHL" (registerName x)
  | .sneReg x y => line2 "SNE" (registerName x) (registerName y)
  | .ldI nnn => line2 "LD" "I" (addressLiteral nnn)
  | .jpV0 nnn => line2 "JP" "V0" (addressLiteral nnn)
  | .rnd x nn => line2 "RND" (registerName x) (byteLiteral nn)
  | .drw x y n => line2 "DRW" (registerName x) (registerName y) ++ ", " ++ nibbleLiteral n
  | .skp x => line1 "SKP" (registerName x)
  | .sknp x => line1 "SKNP" (registerName x)
  | .ldVxDt x => line2 "LD" (registerName x) "DT"
  | .ldVxK x => line2 "LD" (registerName x) "K"
  | .ldDtVx x => line2 "LD" "DT" (registerName x)
  | .ldStVx x => line2 "LD" "ST" (registerName x)
  | .addI x => line2 "ADD" "I" (registerName x)
  | .ldF x => line2 "LD" "F" (registerName x)
  | .ldB x => line2 "LD" "B" (registerName x)
  | .ldMemVx x => line2 "LD" "[I]" (registerName x)
  | .ldVxMem x => line2 "LD" (registerName x) "[I]"

end Sys2Proof
end

