-- ==== Sys2Proof/Config.lean ====
section
/-! DEFINITION. What the implementation fixes (00_scope.md R7) and the free values: what the spec leaves to the
block's collaborators (10_state.md R36). A free value is an opaque constant WITHOUT a body, so no proof can know it. -/

namespace Sys2Proof.Config

/-- `MEMSIZE`: addresses 0x000..0xFFF exist (R7, R60). -/
@[simp] abbrev memSize : Nat := 0x1000

/-- `FONT_BASE` (R7). -/
@[simp] abbrev fontBase : Nat := 0x050

/-- The first address after the font table: the table occupies 0x050..0x09F (R7). -/
@[simp] abbrev fontEnd : Nat := 0x0A0

/-- `PROG_BASE`: the reset value of PC and the ROM load address (R7). -/
@[simp] abbrev progBase : Nat := 0x200

/-- `MAX_ROM` = 4096 - 512 (R7, R231). -/
@[simp] abbrev maxRom : Nat := 3584

/-- `FB_W` (R7). -/
@[simp] abbrev fbWidth : Nat := 64

/-- `FB_H` (R7). -/
@[simp] abbrev fbHeight : Nat := 32

/-- `FONT_WRITE_POLICY` (R7, 20_memory.md R63): what a write into the font table does. A PARAMETER of the spec: State
carries its value, so every statement over all states holds for both (log 7). -/
inductive FontWritePolicy
  /-- The write raises `FontRegionWrite` (the spec's default). -/
  | fault
  /-- The byte is written like any other. -/
  | write
  deriving DecidableEq, Repr

/-! Free values. Each is applied to a counter that State holds. -/

/-- The value on the `KEYS` port at a step (R36 "drawn freely"; log 2). -/
opaque keyState : Nat → BitVec 16

/-- The bytes the random-byte provider hands out, in order (R141 "any 8-bit value"; log 3). -/
opaque randomByte : Nat → Byte

/-- The answer of `KeyDown(v)` for `v > 15` at a step (44_input_timers.md R186 "any answer"; log 4). -/
opaque outsideKeyDown : Nat → Bool

/-- Which of the down keys FX0A takes at a step (R182 "any member of D"; log 5). -/
opaque keyPick : Nat → Nat

/-- How many ticks happen before a step (60_exceptions.md R214 "any number of ticks ... including none"; log 6). -/
opaque ticksBefore : Nat → Nat

end Sys2Proof.Config
end

