-- ==== Sys2Proof/Machine/Memory.lean ====
section
/-! DEFINITION. Memory as plain data (10_state.md R32, 20_memory.md R60, R70, R76): a list of (address, byte) cells in one
canonical form, what an unlisted address reads as, reading and writing one byte. The access CHECKS of R62 and R63 are
in Ops.lean; what stands here is the array `M` alone. -/

namespace Sys2Proof.Machine

/-- The array `M[0..4095]` (R32), as the cells that differ from what an unlisted address reads as. -/
abbrev Memory := List Host.Cell

/-- The glyphs of the digits 0..7 in the spec's default `FONT_DATA` (R76; general knowledge, G3: log 8). -/
def fontLow : List (List Byte) :=
  [ [0xF0, 0x90, 0x90, 0x90, 0xF0],
    [0x20, 0x60, 0x20, 0x20, 0x70],
    [0xF0, 0x10, 0xF0, 0x80, 0xF0],
    [0xF0, 0x10, 0xF0, 0x10, 0xF0],
    [0x90, 0x90, 0xF0, 0x10, 0x10],
    [0xF0, 0x80, 0xF0, 0x10, 0xF0],
    [0xF0, 0x80, 0xF0, 0x90, 0xF0],
    [0xF0, 0x10, 0x20, 0x40, 0x40] ]

/-- The glyphs of the digits 8..F in the spec's default `FONT_DATA` (R76; log 8). -/
def fontHigh : List (List Byte) :=
  [ [0xF0, 0x90, 0xF0, 0x90, 0xF0],
    [0xF0, 0x90, 0xF0, 0x10, 0xF0],
    [0xF0, 0x90, 0xF0, 0x90, 0x90],
    [0xE0, 0x90, 0xE0, 0x90, 0xE0],
    [0xF0, 0x80, 0x80, 0x80, 0xF0],
    [0xE0, 0x90, 0x90, 0x90, 0xE0],
    [0xF0, 0x80, 0xF0, 0x80, 0xF0],
    [0xF0, 0x80, 0xF0, 0x80, 0x80] ]

/-- The 80 bytes of the default font table, glyph by glyph, top row first (R76). -/
def defaultFont : List Byte := (fontLow ++ fontHigh).flatten

/-- What an address that no cell lists reads as: the reset contents, the default font at 0x050..0x09F and 0x00
everywhere else (R40, R230; logs 8, 10). -/
def background (a : Nat) : Byte :=
  if Config.fontBase ≤ a ∧ a < Config.fontEnd then defaultFont.getD (a - Config.fontBase) 0 else 0

/-- `M[a]`. -/
def Memory.read : Memory → Nat → Byte
  | [], a => background a
  | c :: rest, a => if c.1 = a then c.2 else Memory.read rest a

/-- The cells without the one at `a`. -/
def Memory.erase : Memory → Nat → Memory
  | [], _ => []
  | c :: rest, a => if c.1 = a then Memory.erase rest a else c :: Memory.erase rest a

/-- Put a cell before the first cell of a higher address. -/
def Memory.insert : Memory → Nat → Byte → Memory
  | [], a, b => [(a, b)]
  | c :: rest, a, b => if a < c.1 then (a, b) :: c :: rest else c :: Memory.insert rest a b

/-- `M[a] <- b`, kept canonical: writing what an unlisted address reads as removes the cell. -/
def Memory.write (m : Memory) (a : Nat) (b : Byte) : Memory :=
  if b = background a then Memory.erase m a else Memory.insert (Memory.erase m a) a b

/-- `M[a + k] <- bs[k]` for each `k`, in ascending order. -/
def Memory.writeList : Memory → Nat → List Byte → Memory
  | m, _, [] => m
  | m, a, b :: bs => Memory.writeList (Memory.write m a b) (a + 1) bs

/-- The canonical form: addresses strictly rising, all of them in the address space, and no cell equal to what its
address would read as unlisted. -/
abbrev Memory.wf (m : Memory) : Prop :=
  m.Pairwise (fun c d => c.1 < d.1) ∧ ∀ c ∈ m, c.1 < Config.memSize ∧ c.2 ≠ background c.1

end Sys2Proof.Machine
end

