-- ==== Sys2Proof/Machine/State.lean ====
section
/-! DEFINITION. The state of the block as plain data (10_state.md), the reasons a transaction can stop, and the state
after reset (R40). -/

namespace Sys2Proof.Machine

/-- The fatal codes (60_exceptions.md R201); `number` gives their numbers. -/
inductive FaultCode
  /-- CALL with SP = 16 (R202). -/
  | stackOverflow
  /-- RET with SP = 0 (R203). -/
  | stackUnderflow
  /-- An address of 0x1000 or more (R204). -/
  | memoryOutOfBounds
  /-- A write into the font table under policy `fault` (R205). -/
  | fontRegionWrite
  /-- A ROM longer than 3584 bytes; load-time only, so no record ever holds it (R206). -/
  | romTooLarge
  deriving DecidableEq, Repr

/-- The `fault` record (R33). -/
structure FaultRecord where
  /-- The fatal code. -/
  code : FaultCode
  /-- The instruction word, or none if the fault happened during fetch. -/
  word : Option Word
  /-- The PC of the offending instruction. -/
  addr : Word
  /-- The lowest memory address whose check failed, for the two memory codes: an exact integer (R61; log 21). -/
  ea : Option Nat
  deriving DecidableEq, Repr

/-- An event on the diagnostics output (R35, R207, R219). -/
inductive DiagEvent
  /-- The word matched no row; `addr` is its address. -/
  | unknownOpcode (word addr : Word)
  deriving DecidableEq, Repr

/-- The values on the block's input ports during one step (R36). -/
structure Inputs where
  /-- `KEYS`: bit k is 1 when key k is down (log 2). -/
  keys : BitVec 16
  /-- `RAND`: the byte the random-byte provider offers (log 3). -/
  rand : Byte
  /-- What `KeyDown(v)` answers for v > 15 (R186; log 4). -/
  outsideKey : Bool
  /-- Which of the down keys FX0A takes, counted modulo their number (R182; log 5). -/
  keyPick : Nat
  deriving DecidableEq, Repr

/-- The framebuffer, row-major: bit `64 y + x` is the pixel at column x and row y (R30 "a flat ordered sequence,
row-major"; the snapshot port has 2048 bits, R36; log 13). -/
abbrev Framebuffer := BitVec 2048

/-- Everything the spec gives the machine, then the model's own fields. -/
structure State where
  /-- V0..VF (R21). -/
  v : Vector Byte 16
  /-- The index register I (R27). -/
  i : Word
  /-- The program counter (R24). -/
  pc : Word
  /-- The stack pointer, 0..16: how many entries are occupied (R29; log 14). -/
  sp : Fin 17
  /-- S[0..15] (R28). -/
  stack : Vector Word 16
  /-- The delay timer DT (R31). -/
  dt : Byte
  /-- The sound timer ST (R31). -/
  st : Byte
  /-- M[0..4095] (R32). -/
  mem : Memory
  /-- The framebuffer FB (R30). -/
  fb : Framebuffer
  /-- The block has halted on a fatal condition (R33, R208). -/
  halted : Bool
  /-- The fault record (R33). -/
  fault : Option FaultRecord
  /-- The parameter `FONT_WRITE_POLICY` (R7, R63); no step changes it (log 7). -/
  fontWritePolicy : Config.FontWritePolicy
  /-- MODEL: the input ports during the present step (R36). -/
  inputs : Inputs
  /-- MODEL: how many step boundaries have drawn free inputs (logs 2, 6). -/
  samples : Nat
  /-- MODEL: how many RAND bytes CXNN has consumed (log 3). -/
  randDraws : Nat
  /-- MODEL: the diagnostic events emitted so far, newest first (R35; log 9). -/
  diag : List DiagEvent
  deriving DecidableEq, Repr

/-- How a transaction stops without a next state. No INSTRUCTION stops so: a fatal condition of a step is a next state
with `halted` set (R208; log 1). -/
inductive Fault
  /-- Raised by the load transaction `loadRom` (R206) when the ROM has more than 3584 bytes: no machine state is
  built. Safe: nothing is claimed of a machine that was not built. `step` never raises it. -/
  | romTooLarge (length : Nat)
  deriving DecidableEq, Repr

/-- Why the model answers nothing. -/
inductive Refusal
  /-- Raised by `exec` for an instruction that has no meaning yet. Safe: nothing follows from it. No arm raises it now. -/
  | notModelled (mnemonic : String)
  deriving DecidableEq, Repr

/-- What a meaning answers. -/
abbrev Result := Host.Outcome State Fault Refusal

/-- The machine after `reset` of the empty ROM with the default parameters (R40, R230; the model's own fields: logs 2
to 6 and 9). A program is loaded from outside (log 11). -/
def State.reset : State where
  v := Vector.replicate 16 0
  i := 0
  pc := 0x200
  sp := 0
  stack := Vector.replicate 16 0
  dt := 0
  st := 0
  mem := []
  fb := 0
  halted := false
  fault := none
  fontWritePolicy := .fault
  inputs := { keys := 0, rand := 0, outsideKey := false, keyPick := 0 }
  samples := 0
  randDraws := 0
  diag := []

end Sys2Proof.Machine
end

