-- ==== Sys2Proof/Machine/Operands.lean ====
section
/-! DEFINITION. Every operand form (30_encoding.md R82): a register by index, runs of registers V0..Vx, the immediates,
effective addresses from I (20_memory.md R61). -/

namespace Sys2Proof.Machine

/-- `V[r]` (R10, R21): any register, VF like the rest (R22). -/
def State.reg (s : State) (r : Reg) : Byte := s.v[r]

/-- `V[r] <- b`. No register is hard-wired (R21). -/
def State.setReg (s : State) (r : Reg) (b : Byte) : State := { s with v := s.v.set r b }

/-- `(V[0], ..., V[x])` (R164). -/
def State.regsThrough (s : State) (x : Reg) : List Byte := s.v.toList.take (x.val + 1)

/-- `V[k] <- f k` for k in 0..x (R165). -/
def State.setRegsThrough (s : State) (x : Reg) (f : Nat → Byte) : State :=
  { s with v := Vector.ofFn fun k => if k.val ≤ x.val then f k.val else s.v[k] }

/-- `nnn` as the 16-bit value `zext_16(nnn)` (R82). -/
def immAddress (nnn : Imm12) : Word := zext16 nnn

/-- The effective address `I + k`: the exact integer, not reduced (R61). -/
def State.effective (s : State) (k : Nat) : Nat := s.i.toNat + k

/-- The address of the glyph of `d`: the exact sum 0x050 + 5 d, at most 0x54B, so it fits I (43_index_memory.md R162). -/
def glyphAddress (d : Byte) : Word := BitVec.ofNat 16 (Config.fontBase + 5 * d.toNat)

/-- The BCD digits of a byte: hundreds, tens, ones (R163). -/
def bcdDigits (b : Byte) : List Byte :=
  [ BitVec.ofNat 8 (b.toNat / 100), BitVec.ofNat 8 (b.toNat / 10 % 10), BitVec.ofNat 8 (b.toNat % 10) ]

end Sys2Proof.Machine
end

