-- ==== Sys2Proof/Machine/Flags.lean ====
section
/-! DEFINITION. Every flag computation (10_state.md R26, 42_alu.md R128) and the order in which a result and its flag
are written (30_encoding.md R94). -/

namespace Sys2Proof.Machine

/-- `bool(c)` as a byte (00_scope.md R9). -/
def flagByte (c : Bool) : Byte := if c then 1 else 0

/-- The carry out of bit 7: `a + b > 255` in exact arithmetic (R136). -/
def carryOut (a b : Byte) : Bool := decide (a.toNat + b.toNat > 255)

/-- No borrow in `a - b`: `a >= b` (R137, R139). -/
def noBorrow (a b : Byte) : Bool := decide (a.toNat ≥ b.toNat)

/-- The bit a right shift by one moves out: bit 0 (R138). -/
def lowBit (a : Byte) : Bool := a.getLsbD 0

/-- The bit a left shift by one moves out: bit 7 (R140). -/
def highBit (a : Byte) : Bool := a.getLsbD 7

/-- `VF <- bool(c)`. -/
def State.setFlag (s : State) (c : Bool) : State := s.setReg vf (flagByte c)

/-- The result first and the flag last, so that with x = F the flag is what VF keeps (R94). -/
def State.setResultAndFlag (s : State) (x : Reg) (result : Byte) (c : Bool) : State := (s.setReg x result).setFlag c

end Sys2Proof.Machine
end

