-- ==== Sys2Proof/Machine/Framebuffer.lean ====
section
/-! DEFINITION. The framebuffer's pixels and the sprite compositor (10_state.md R30, 40_display.md R101). -/

namespace Sys2Proof.Machine

/-- The flat index of the pixel at column x and row y (R30). -/
def pixelIndex (x y : Nat) : Nat := y * Config.fbWidth + x

/-- `FB[y][x]`. -/
def Framebuffer.pixel (fb : Framebuffer) (x y : Nat) : Bool := fb.getLsbD (pixelIndex x y)

/-- `FB[y][x] <- b`. -/
def Framebuffer.setPixel (fb : Framebuffer) (x y : Nat) (b : Bool) : Framebuffer :=
  let here := BitVec.twoPow 2048 (pixelIndex x y)
  if b then fb ||| here else fb &&& ~~~here

/-- The compositor's working pair: the framebuffer and `collide` (R101). -/
structure Canvas where
  fb : Framebuffer
  collide : Bool
  deriving DecidableEq, Repr

/-- One sprite bit `b` onto the pixel at column px and row py: XOR it in, and note a set pixel that it clears. -/
def Canvas.plot (c : Canvas) (px py : Nat) (b : Bool) : Canvas :=
  let old := Framebuffer.pixel c.fb px py
  { fb := Framebuffer.setPixel c.fb px py (old ^^ b), collide := c.collide || (old && b) }

/-- The body of the loop over `bit`: bit 0 is the MOST significant bit of the sprite byte, columns modulo 64. -/
def Canvas.plotBit (cx py : Nat) (b : Byte) (c : Canvas) (bit : Nat) : Canvas :=
  c.plot ((cx + bit) % Config.fbWidth) py (b.getLsbD (7 - bit))

/-- The body of the loop over `row`: rows modulo 32, bits 0..7. -/
def Canvas.drawRow (cx cy : Nat) (sprite : Nat → Byte) (c : Canvas) (row : Nat) : Canvas :=
  (List.range 8).foldl (Canvas.plotBit cx ((cy + row) % Config.fbHeight) (sprite row)) c

/-- The whole sprite: `n` rows from the top-left pixel (cx, cy), `sprite row` the byte of a row; `collide` starts at 0. -/
def drawSprite (fb : Framebuffer) (cx cy n : Nat) (sprite : Nat → Byte) : Canvas :=
  (List.range n).foldl (Canvas.drawRow cx cy sprite) { fb := fb, collide := false }

end Sys2Proof.Machine
end

