-- ==== Sys2Proof/Machine/Ops.lean ====
section
/-! DEFINITION. The named operations the meanings share: the access checks, the PC update, the stack, taking a fatal
condition, the key query, the timers, fetching, an unknown opcode, the inputs of a step boundary. -/

namespace Sys2Proof.Machine

/-! Fatal entry. The block has no handler and no return: only reset leaves the halted state (60_exceptions.md R208, R211). -/

/-- The numbers of the fatal codes (R201). -/
def FaultCode.number : FaultCode → Nat
  | .stackOverflow => 1
  | .stackUnderflow => 2
  | .memoryOutOfBounds => 3
  | .fontRegionWrite => 4
  | .romTooLarge => 5

/-- `raise Fatal(code, ea)` in a step that has changed nothing yet: record, halt, and nothing else (R208, R95). -/
def State.raiseFatal (s : State) (code : FaultCode) (word : Option Word) (ea : Option Nat) : State :=
  { s with fault := some { code := code, word := word, addr := s.pc, ea := ea }, halted := true }

/-! The access checks of 20_memory.md. -/

/-- The check of `MemRead(a, 1)` (R62): the code it raises, if any. -/
def readCheck (a : Nat) : Option FaultCode := if a ≥ Config.memSize then some .memoryOutOfBounds else none

/-- The address is in the font table 0x050..0x09F (R70). -/
def inFont (a : Nat) : Bool := decide (Config.fontBase ≤ a) && decide (a < Config.fontEnd)

/-- The check of `MemWrite(a, 1, v)` (R63). -/
def writeCheck (policy : Config.FontWritePolicy) (a : Nat) : Option FaultCode :=
  if a ≥ Config.memSize then some .memoryOutOfBounds
  else if inFont a && policy == .fault then some .fontRegionWrite
  else none

/-- The first failing check of the `n` bytes from `a`, in ascending order, with its address (R64). -/
def firstFailing (check : Nat → Option FaultCode) : Nat → Nat → Option (FaultCode × Nat)
  | _, 0 => none
  | a, n + 1 =>
    match check a with
    | some code => some (code, a)
    | none => firstFailing check (a + 1) n

/-- The failing read among the `n` bytes from I. -/
def State.failingRead (s : State) (n : Nat) : Option (FaultCode × Nat) := firstFailing readCheck (s.effective 0) n

/-- The failing write among the `n` bytes from I. -/
def State.failingWrite (s : State) (n : Nat) : Option (FaultCode × Nat) :=
  firstFailing (writeCheck s.fontWritePolicy) (s.effective 0) n

/-- All checks first (R64): if one fails, the instruction `i` is fatal and has no effect; else the effect happens. -/
def State.guarded (s : State) (i : Instr) (failing : Option (FaultCode × Nat)) (effect : Result) : Result :=
  match failing with
  | some (code, ea) => .next (s.raiseFatal code (some (encode i)) (some ea))
  | none => effect

/-- The byte at `I + k` (R61, R62), checked before. -/
def State.byteAtI (s : State) (k : Nat) : Byte := Memory.read s.mem (s.effective k)

/-- Store `bs` at I, I+1, ... (R63), checked before. -/
def State.storeAtI (s : State) (bs : List Byte) : State := { s with mem := Memory.writeList s.mem (s.effective 0) bs }

/-! The PC update (30_encoding.md R92). -/

/-- How an instruction updates PC. -/
inductive PcUpdate
  | next
  | skip (c : Bool)
  | jump (target : Word)
  | wait
  deriving DecidableEq, Repr

/-- `Advance(pc0, upd)`, modulo 2^16 (R92, 10_state.md R25). -/
def advance (pc0 : Word) : PcUpdate → Word
  | .next => pc0 + 2
  | .skip c => if c then pc0 + 4 else pc0 + 2
  | .jump target => target
  | .wait => pc0

/-- The end of an instruction that raised nothing: update PC and go on. -/
def State.finish (s : State) (upd : PcUpdate) : Result := .next { s with pc := advance s.pc upd }

/-! The call stack (10_state.md R28, R29). -/

/-- `S[SP] <- a; SP <- SP + 1`, or nothing when SP = 16. -/
def State.push (s : State) (a : Word) : Option State :=
  if h : s.sp.val < 16 then
    some { s with stack := s.stack.set s.sp.val a h, sp := ⟨s.sp.val + 1, by omega⟩ }
  else none

/-- `SP <- SP - 1; S[SP]`, or nothing when SP = 0. The vacated entry keeps its value. -/
def State.pop (s : State) : Option (Word × State) :=
  if h : s.sp.val = 0 then none
  else
    some (s.stack[s.sp.val - 1]'(by omega), { s with sp := ⟨s.sp.val - 1, by omega⟩ })

/-! Keys (44_input_timers.md R186). -/

/-- `KeyDown(v)`: the input bit of a key 0..15; outside the keypad any answer. DESIGN CHOICE: the answer outside the keypad
is free whatever `KEYS` holds, 0 included, so also where R180 says that without an input collaborator SKP never skips,
and R181 that SKNP always skips; that outcome is one of those admitted (log 4). -/
def keyDown (inp : Inputs) (b : Byte) : Bool := if b.toNat ≤ 15 then inp.keys.getLsbD b.toNat else inp.outsideKey

/-- `{ k in 0..15 : KeyDown(k) }`, ascending (R182). -/
def downKeys (inp : Inputs) : List Nat := (List.range 16).filter fun k => keyDown inp (BitVec.ofNat 8 k)

/-- A member of the down keys, drawn by `keyPick`; none when no key is down (R182). -/
def drawnKey (inp : Inputs) : Option Nat :=
  match downKeys inp with
  | [] => none
  | k :: ks => some ((k :: ks).getD (inp.keyPick % (ks.length + 1)) k)

/-! Timers (60_exceptions.md R213 to R215). -/

/-- `if T > 0: T <- T - 1`. -/
def decrement (t : Byte) : Byte := if t.toNat > 0 then t - 1 else t

/-- One `tick` transaction: nothing when halted. -/
def tick (s : State) : State := if s.halted then s else { s with dt := decrement s.dt, st := decrement s.st }

/-- A timer after `k` ticks: `max(0, t - k)` (70_reset_and_hazards.md R237). That this is `k` times `decrement` is a
lemma (Laws/Ops.lean). -/
def countDown (k : Nat) (t : Byte) : Byte := if t = 0 then 0 else BitVec.ofNat 8 (t.toNat - k)

/-! What happens at a step boundary (10_state.md R36, R37). -/

/-- The values on the input ports of the next step, all of them free (logs 2 to 5). -/
def sampledInputs (s : State) : Inputs where
  keys := Config.keyState s.samples
  rand := Config.randomByte s.randDraws
  outsideKey := Config.outsideKeyDown s.samples
  keyPick := Config.keyPick s.samples

/-- The boundary before a step of a block that is not halted: a free number of ticks (R214; log 6), then the inputs of
the step are sampled. -/
def environment (s : State) : State :=
  { s with
    dt := countDown (Config.ticksBefore s.samples) s.dt
    st := countDown (Config.ticksBefore s.samples) s.st
    inputs := sampledInputs s
    samples := s.samples + 1 }

/-! Fetching and unknown opcodes. -/

/-- `Fetch(pc)`: the word, or the lowest byte address that fails (20_memory.md R65, R66). -/
def State.fetch (s : State) : Except Nat Word :=
  if s.pc.toNat + 1 ≥ Config.memSize then
    .error (if s.pc.toNat ≥ Config.memSize then s.pc.toNat else s.pc.toNat + 1)
  else .ok (wordOfBytes (Memory.read s.mem s.pc.toNat) (Memory.read s.mem (s.pc.toNat + 1)))

/-- A word that matches no row: one diagnostic event and PC + 2 (30_encoding.md R86, 60_exceptions.md R207). -/
def unknownOpcode (w : Word) (s : State) : Result :=
  State.finish { s with diag := .unknownOpcode w s.pc :: s.diag } .next

/-- Store a word where the engine fetches next (R65). Where PC names no fetchable pair of bytes, or the block is halted,
nothing could be fetched at all: PC moves to 0x200 and the halt is cleared, as a load does (log 11). -/
def State.placeWord (s : State) (w : Word) : State :=
  let pc := if s.pc.toNat + 1 ≥ Config.memSize then 0x200 else s.pc
  { s with
    pc := pc
    halted := false
    fault := if s.halted then none else s.fault
    mem := Memory.writeList s.mem pc.toNat [highByte w, lowByte w] }

end Sys2Proof.Machine
end

