-- ==== Sys2Proof/Machine/Alu.lean ====
section
/-! DEFINITION. The register and ALU instructions (42_alu.md). -/

namespace Sys2Proof.Machine

/-- LD Vx, nn (R130). -/
def execLdImm (x : Reg) (nn : Byte) (s : State) : Result := (s.setReg x nn).finish .next

/-- ADD Vx, nn (R131): no flag. -/
def execAddImm (x : Reg) (nn : Byte) (s : State) : Result := (s.setReg x (s.reg x + nn)).finish .next

/-- LD Vx, Vy (R132). -/
def execLdReg (x y : Reg) (s : State) : Result := (s.setReg x (s.reg y)).finish .next

/-- OR Vx, Vy (R133): VF is not reset. -/
def execOrReg (x y : Reg) (s : State) : Result := (s.setReg x (s.reg x ||| s.reg y)).finish .next

/-- AND Vx, Vy (R134). -/
def execAndReg (x y : Reg) (s : State) : Result := (s.setReg x (s.reg x &&& s.reg y)).finish .next

/-- XOR Vx, Vy (R135). -/
def execXorReg (x y : Reg) (s : State) : Result := (s.setReg x (s.reg x ^^^ s.reg y)).finish .next

/-- ADD Vx, Vy (R136). -/
def execAddReg (x y : Reg) (s : State) : Result :=
  (s.setResultAndFlag x (s.reg x + s.reg y) (carryOut (s.reg x) (s.reg y))).finish .next

/-- SUB Vx, Vy (R137). -/
def execSubReg (x y : Reg) (s : State) : Result :=
  (s.setResultAndFlag x (s.reg x - s.reg y) (noBorrow (s.reg x) (s.reg y))).finish .next

/-- SHR Vx (R138): in place; the y field is not read. -/
def execShr (x _y : Reg) (s : State) : Result :=
  (s.setResultAndFlag x (s.reg x >>> 1) (lowBit (s.reg x))).finish .next

/-- SUBN Vx, Vy (R139). -/
def execSubnReg (x y : Reg) (s : State) : Result :=
  (s.setResultAndFlag x (s.reg y - s.reg x) (noBorrow (s.reg y) (s.reg x))).finish .next

/-- SHL Vx (R140): in place; the y field is not read. -/
def execShl (x _y : Reg) (s : State) : Result :=
  (s.setResultAndFlag x (s.reg x <<< 1) (highBit (s.reg x))).finish .next

/-- RND Vx, nn (R141): exactly one RAND byte is consumed, whatever nn is. -/
def execRnd (x : Reg) (nn : Byte) (s : State) : Result :=
  State.finish { s.setReg x (s.inputs.rand &&& nn) with randDraws := s.randDraws + 1 } .next

end Sys2Proof.Machine
end

