-- ==== Sys2Proof/Machine/Control.lean ====
section
/-! DEFINITION. The control-transfer instructions (41_control.md). -/

namespace Sys2Proof.Machine

/-- SYS nnn (R110): a no-op that emits no diagnostic event. -/
def execSys (_nnn : Imm12) (s : State) : Result := s.finish .next

/-- RET (R111): the popped value is used as stored. -/
def execRet (s : State) : Result :=
  match s.pop with
  | none => .next (s.raiseFatal .stackUnderflow (some (encode .ret)) none)
  | some (target, t) => t.finish (.jump target)

/-- JP nnn (R112). -/
def execJp (nnn : Imm12) (s : State) : Result := s.finish (.jump (immAddress nnn))

/-- CALL nnn (R113): pushes the address of the next instruction. -/
def execCall (nnn : Imm12) (s : State) : Result :=
  match s.push (s.pc + 2) with
  | none => .next (s.raiseFatal .stackOverflow (some (encode (.call nnn))) none)
  | some t => t.finish (.jump (immAddress nnn))

/-- SE Vx, nn (R114). -/
def execSeImm (x : Reg) (nn : Byte) (s : State) : Result := s.finish (.skip (s.reg x == nn))

/-- SNE Vx, nn (R115). -/
def execSneImm (x : Reg) (nn : Byte) (s : State) : Result := s.finish (.skip (s.reg x != nn))

/-- SE Vx, Vy (R116). -/
def execSeReg (x y : Reg) (s : State) : Result := s.finish (.skip (s.reg x == s.reg y))

/-- SNE Vx, Vy (R117). -/
def execSneReg (x y : Reg) (s : State) : Result := s.finish (.skip (s.reg x != s.reg y))

/-- JP V0, nnn (R118): the offset register is always V0; the sum is not reduced to 12 bits. -/
def execJpV0 (nnn : Imm12) (s : State) : Result := s.finish (.jump (zext16 (s.reg 0) + immAddress nnn))

end Sys2Proof.Machine
end

