-- ==== Sys2Proof/Machine/Display.lean ====
section
/-! DEFINITION. The display instructions (40_display.md). -/

namespace Sys2Proof.Machine

/-- CLS (R100). -/
def execCls (s : State) : Result := State.finish { s with fb := 0 } .next

/-- DRW Vx, Vy, n (R101): the coordinates and I are sampled first (R93), every sprite address is checked before
anything is drawn (R64), VF <- collide on every completed draw. -/
def execDrw (x y : Reg) (n : Fin 16) (s : State) : Result :=
  let canvas := drawSprite s.fb (s.reg x).toNat (s.reg y).toNat n.val s.byteAtI
  s.guarded (.drw x y n) (s.failingRead n.val)
    ((State.setFlag { s with fb := canvas.fb } canvas.collide).finish .next)

end Sys2Proof.Machine
end

