-- ==== Sys2Proof/Machine/IndexMemory.lean ====
section
/-! DEFINITION. The index-register and memory instructions (43_index_memory.md). I is never changed by an access. -/

namespace Sys2Proof.Machine

/-- LD I, nnn (R160). -/
def execLdI (nnn : Imm12) (s : State) : Result := State.finish { s with i := immAddress nnn } .next

/-- ADD I, Vx (R161): modulo 2^16, VF unchanged. -/
def execAddI (x : Reg) (s : State) : Result := State.finish { s with i := s.i + zext16 (s.reg x) } .next

/-- LD F, Vx (R162): Vx is not masked. -/
def execLdF (x : Reg) (s : State) : Result := State.finish { s with i := glyphAddress (s.reg x) } .next

/-- LD B, Vx (R163). -/
def execLdB (x : Reg) (s : State) : Result :=
  s.guarded (.ldB x) (s.failingWrite 3) ((s.storeAtI (bcdDigits (s.reg x))).finish .next)

/-- LD [I], Vx (R164): V0..Vx to I..I+x. -/
def execLdMemVx (x : Reg) (s : State) : Result :=
  s.guarded (.ldMemVx x) (s.failingWrite (x.val + 1)) ((s.storeAtI (s.regsThrough x)).finish .next)

/-- LD Vx, [I] (R165): I..I+x to V0..Vx. -/
def execLdVxMem (x : Reg) (s : State) : Result :=
  s.guarded (.ldVxMem x) (s.failingRead (x.val + 1)) ((s.setRegsThrough x s.byteAtI).finish .next)

end Sys2Proof.Machine
end

