-- ==== Sys2Proof/Machine/InputTimers.lean ====
section
/-! DEFINITION. The key-input and timer instructions (44_input_timers.md). The key state is `s.inputs`, what the input
ports hold during this step. -/

namespace Sys2Proof.Machine

/-- SKP Vx (R180). -/
def execSkp (x : Reg) (s : State) : Result := s.finish (.skip (keyDown s.inputs (s.reg x)))

/-- SKNP Vx (R181). -/
def execSknp (x : Reg) (s : State) : Result := s.finish (.skip (!keyDown s.inputs (s.reg x)))

/-- LD Vx, DT (R183). -/
def execLdVxDt (x : Reg) (s : State) : Result := (s.setReg x s.dt).finish .next

/-- `V[x] <- k` for a drawn key, nothing when none was drawn (R182). -/
def State.takeKey (s : State) (x : Reg) : Option Nat → State
  | none => s
  | some k => s.setReg x (BitVec.ofNat 8 k)

/-- LD Vx, K (R182): PC stays while no key is down; otherwise any down key. -/
def execLdVxK (x : Reg) (s : State) : Result :=
  .next { s.takeKey x (drawnKey s.inputs) with
    pc := advance s.pc (if (drawnKey s.inputs).isNone then .wait else .next) }

/-- LD DT, Vx (R184). -/
def execLdDtVx (x : Reg) (s : State) : Result := State.finish { s with dt := s.reg x } .next

/-- LD ST, Vx (R185). -/
def execLdStVx (x : Reg) (s : State) : Result := State.finish { s with st := s.reg x } .next

end Sys2Proof.Machine
end

