-- ==== Sys2Proof/Machine/Cycle.lean ====
section
/-! DEFINITION. The instruction cycle (30_encoding.md R91): fetch, decode, execute, PC update, and the `step`
transaction with given inputs. -/

namespace Sys2Proof.Machine

/-- `Step()` after its `halted` test: a failed fetch is fatal with no word (R66), a word that matches no row is an
unknown opcode (R86), any other word is its row's instruction. -/
def cycle (s : State) : Result :=
  match s.fetch with
  | .error ea => .next (s.raiseFatal .memoryOutOfBounds none (some ea))
  | .ok w =>
    match decodeWord w with
    | none => unknownOpcode w s
    | some i => exec i s

/-- One `step` transaction during which the input ports hold `inp` (R36, R91); nothing when halted. -/
def stepWith (inp : Inputs) (s : State) : Result := if s.halted then .next s else cycle { s with inputs := inp }

/-- The machine's own step: nothing when halted (R91, R215); else a free number of ticks, freely sampled inputs, and
one step transaction (R36, R214; logs 2 to 6). -/
def freeStep (s : State) : Result := if s.halted then .next s else cycle (environment s)

end Sys2Proof.Machine
end

