-- ==== Sys2Proof/Machine/Step.lean ====
section
/-! DEFINITION. The fixed step of the machine, and where a word is placed so that the next step runs it. -/

namespace Sys2Proof.Machine

/-- One step (Cycle.lean's `freeStep`). -/
def step : State → Host.Outcome State Fault Refusal := freeStep

/-- `s` with the word `w` stored where the next step fetches (every instruction is one 16-bit word, R80; log 11). -/
def State.withFetchWord (s : State) (_nbits w : Nat) : State := s.placeWord (BitVec.ofNat 16 w)

end Sys2Proof.Machine
end

