-- ==== Sys2Proof/Machine/Interface.lean ====
section
/-! DEFINITION. The block's interface as transactions over an explicit schedule (10_state.md R36, R37): reset with a ROM,
step, tick, quit, and the outputs the host may read between steps. -/

namespace Sys2Proof.Machine

/-- The parameters of a block that `reset` builds into it (00_scope.md R7). -/
structure Params where
  /-- `FONT_DATA`. -/
  fontData : Vector Byte 80
  /-- `FONT_WRITE_POLICY`. -/
  fontWritePolicy : Config.FontWritePolicy
  deriving DecidableEq, Repr

/-- The spec's defaults (R7, R76; logs 7, 8). -/
def defaultParams : Params where
  fontData := Vector.ofFn fun k => background (Config.fontBase + k.val)
  fontWritePolicy := .fault

/-- The memory that `reset(rom)` builds: 0x00, the font, the ROM from 0x200 (70_reset_and_hazards.md R230). -/
def loadedMemory (p : Params) (rom : List Byte) : Memory :=
  Memory.writeList (Memory.writeList [] Config.fontBase p.fontData.toList) Config.progBase rom

/-- `reset(rom)` (R230, R231): a ROM of more than 3584 bytes is rejected and nothing is built. -/
def loadRom (p : Params) (rom : List Byte) : Result :=
  if rom.length > Config.maxRom then .fault (.romTooLarge rom.length)
  else .next { State.reset with mem := loadedMemory p rom, fontWritePolicy := p.fontWritePolicy }

/-- A transaction of R36. -/
inductive Transaction
  /-- `reset(rom)`. -/
  | reset (rom : List Byte)
  /-- `step`, with what the input ports hold during it. -/
  | step (inp : Inputs)
  /-- `tick`. -/
  | tick
  /-- `quit`: the run ends at this step boundary. -/
  | quit
  deriving DecidableEq, Repr

/-- A reset in mid-run: everything the spec gives the machine is built anew; the model's own draw counters and the
events already emitted stay (log 12). DESIGN CHOICE: a fatal report is the `fault` record and is cleared with it (R230), so
it is not kept with the events (log 23). -/
def resetKeeping (p : Params) (rom : List Byte) (s : State) : Result :=
  match loadRom p rom with
  | .next t => .next { t with samples := s.samples, randDraws := s.randDraws, diag := s.diag }
  | .fault f => .fault f
  | .refused r => .refused r

/-- The effect of one transaction. `quit` changes no state (60_exceptions.md R221). -/
def transact (p : Params) : Transaction → State → Result
  | .reset rom, s => resetKeeping p rom s
  | .step inp, s => stepWith inp s
  | .tick, s => .next (tick s)
  | .quit, s => .next s

/-- A schedule of transactions, in order; nothing after a `quit` happens (R221), and nothing runs after a rejected ROM
(R206). Any schedule is admitted (R214). -/
def runSchedule (p : Params) : List Transaction → State → Result
  | [], s => .next s
  | .quit :: _, s => .next s
  | t :: ts, s =>
    match transact p t s with
    | .next s' => runSchedule p ts s'
    | .fault f => .fault f
    | .refused r => .refused r

/-- What the diagnostics output carries: the unknown-opcode events and the fatal report (R219). -/
inductive DebugItem
  | event (e : DiagEvent)
  | fatal (r : FaultRecord)
  deriving DecidableEq, Repr

/-- The diagnostics output so far, newest first: nothing follows a fatal report until a reset (R208, R219; log 9).
DESIGN CHOICE: the report is read from the `fault` field, which a reset clears (R230), so a reset in mid-run drops an
earlier fatal report from here while the earlier events stay; the spec does not say what the host reads then (log 23). -/
def debugOutput (s : State) : List DebugItem := s.fault.toList.map .fatal ++ s.diag.map .event

/-- What the host may read between steps (R36). -/
structure Outputs where
  /-- The framebuffer snapshot. -/
  framebuffer : Framebuffer
  /-- The sound timer's value. What audio it drives is outside the block (R216). -/
  sound : Byte
  halted : Bool
  fault : Option FaultRecord
  /-- The diagnostics output so far, newest first. -/
  diag : List DebugItem
  deriving DecidableEq, Repr

/-- The output ports. Reading them changes nothing (R37). -/
def outputs (s : State) : Outputs where
  framebuffer := s.fb
  sound := s.st
  halted := s.halted
  fault := s.fault
  diag := debugOutput s

end Sys2Proof.Machine
end

