-- ==== Sys2Proof/Safety.lean ====
section
/-! DEFINITION. The terms claims are made in: what a transition leaves unchanged, what an instruction may change, when
it is fatal, the invariant of the machine, and the end of a run. Each is written from the spec's prose, not from the
meanings. -/

namespace Sys2Proof.Machine

/-! ## Frames -/

/-- The parts of the state that a completed instruction may change, besides PC (10_state.md). -/
inductive Part
  /-- V0..VF. -/
  | registers
  /-- I. -/
  | index
  /-- M, byte by byte. -/
  | memory
  /-- FB. -/
  | screen
  /-- SP and S. -/
  | stack
  /-- DT. -/
  | delay
  /-- ST. -/
  | sound
  /-- The count of consumed RAND bytes. -/
  | draws
  deriving DecidableEq, Repr

/-- The part is the same in both states. Memory is compared through the read of every byte. -/
def Unchanged (s t : State) : Part → Prop
  | .registers => ∀ r, t.reg r = s.reg r
  | .index => t.i = s.i
  | .memory => ∀ a, Memory.read t.mem a = Memory.read s.mem a
  | .screen => t.fb = s.fb
  | .stack => t.sp = s.sp ∧ t.stack = s.stack
  | .delay => t.dt = s.dt
  | .sound => t.st = s.st
  | .draws => t.randDraws = s.randDraws

/-- Only the parts named, and PC, differ: the status, the parameter, the input ports and the diagnostics do not. -/
def OnlyChanges (parts : List Part) (s t : State) : Prop :=
  (∀ p, p ∉ parts → Unchanged s t p) ∧
  t.halted = s.halted ∧ t.fault = s.fault ∧ t.fontWritePolicy = s.fontWritePolicy ∧
  t.inputs = s.inputs ∧ t.samples = s.samples ∧ t.diag = s.diag

/-- Every register but those named is unchanged. -/
def RegsBut (rs : List Reg) (s t : State) : Prop := ∀ r, r ∉ rs → t.reg r = s.reg r

/-- Every byte outside the `n` bytes from `a` reads as before. -/
def MemoryBut (a n : Nat) (s t : State) : Prop :=
  ∀ b, ¬(a ≤ b ∧ b < a + n) → Memory.read t.mem b = Memory.read s.mem b

/-- The instruction completes, writes the number `value` to register `x`, goes on at PC + 2, and changes nothing else. -/
def SetsRegister (i : Instr) (s : State) (x : Reg) (value : Nat) : Prop :=
  ∃ t, exec i s = .next t ∧ (t.reg x).toNat = value ∧ RegsBut [x] s t ∧ t.pc = s.pc + 2 ∧ OnlyChanges [.registers] s t

/-- The instruction completes, writes `value` to register `x` and `flag` to VF, the flag last (so x = F keeps the flag),
goes on at PC + 2, and changes nothing else. -/
def SetsRegisterAndFlag (i : Instr) (s : State) (x : Reg) (value flag : Nat) : Prop :=
  ∃ t, exec i s = .next t ∧ (x ≠ vf → (t.reg x).toNat = value) ∧ (t.reg vf).toNat = flag ∧ RegsBut [x, vf] s t ∧
    t.pc = s.pc + 2 ∧ OnlyChanges [.registers] s t

/-- The instruction completes, goes on at `target`, and changes nothing else. -/
def OnlyMovesPc (i : Instr) (s : State) (target : Word) : Prop :=
  ∃ t, exec i s = .next t ∧ t.pc = target ∧ OnlyChanges [] s t

/-- The unknown word `w` at `s` answered: PC + 2, one event with the word and its address, nothing else (R86, R207). -/
def SkipsUnknown (answer : Result) (s : State) (w : Word) : Prop :=
  ∃ t, answer = .next t ∧ t.pc = s.pc + 2 ∧ t.diag = .unknownOpcode w s.pc :: s.diag ∧
    OnlyChanges [] { s with diag := t.diag } t

/-- What `reset(rom)` leaves in the block's own state (R40, R230), with idle input ports (the model's, logs 2 to 5). -/
structure BuiltByReset (p : Params) (rom : List Byte) (t : State) : Prop where
  registers : ∀ r, t.reg r = 0
  index : t.i = 0
  pc : t.pc = 0x200
  sp : t.sp = 0
  stack : ∀ k : Fin 16, t.stack[k] = 0
  timers : t.dt = 0 ∧ t.st = 0
  memory : ∀ a, a < 0x1000 →
    Memory.read t.mem a =
      if 0x200 ≤ a ∧ a < 0x200 + rom.length then rom.getD (a - 0x200) 0
      else if 0x050 ≤ a ∧ a ≤ 0x09F then p.fontData.toList.getD (a - 0x050) 0
      else 0
  screen : ∀ X Y, X < 64 → Y < 32 → Framebuffer.pixel t.fb X Y = false
  status : t.halted = false ∧ t.fault = none
  policy : t.fontWritePolicy = p.fontWritePolicy
  inputs : t.inputs = { keys := 0, rand := 0, outsideKey := false, keyPick := 0 }

/-! ## What an instruction may change -/

/-- The instructions that may change a part, from the "only" sentences of R22, R27, R28, R29, R30, R31, R36 and R60. -/
def mayChange : Part → Instr → Bool
  | .registers, i => match i with
    | .ldImm _ _ | .addImm _ _ | .ldReg _ _ | .orReg _ _ | .andReg _ _ | .xorReg _ _ | .addReg _ _ | .subReg _ _
    | .shr _ _ | .subnReg _ _ | .shl _ _ | .rnd _ _ | .drw _ _ _ | .ldVxDt _ | .ldVxK _ | .ldVxMem _ => true
    | _ => false
  | .index, i => match i with
    | .ldI _ | .addI _ | .ldF _ => true
    | _ => false
  | .memory, i => match i with
    | .ldB _ | .ldMemVx _ => true
    | _ => false
  | .screen, i => match i with
    | .cls | .drw _ _ _ => true
    | _ => false
  | .stack, i => match i with
    | .call _ | .ret => true
    | _ => false
  | .delay, i => match i with
    | .ldDtVx _ => true
    | _ => false
  | .sound, i => match i with
    | .ldStVx _ => true
    | _ => false
  | .draws, i => match i with
    | .rnd _ _ => true
    | _ => false

/-- The register `r` is one the instruction writes: a named destination, V0..Vx of FX65, or VF of the six that set it
(R22). -/
def writesRegister (r : Reg) : Instr → Bool
  | .ldImm x _ | .addImm x _ | .ldReg x _ | .orReg x _ | .andReg x _ | .xorReg x _ | .rnd x _ | .ldVxDt x
  | .ldVxK x => r == x
  | .addReg x _ | .subReg x _ | .shr x _ | .subnReg x _ | .shl x _ => r == x || r == vf
  | .drw _ _ _ => r == vf
  | .ldVxMem x => decide (r.val ≤ x.val)
  | _ => false

/-- How many bytes from I an instruction stores (R69). -/
def storedBytes : Instr → Nat
  | .ldB _ => 3
  | .ldMemVx x => x.val + 1
  | _ => 0

/-- The PC after a completed instruction at `s` (the table of R92, with the conditions and targets of the
instructions' rules). -/
def pcAfter (s : State) : Instr → Word
  | .seImm x nn => if s.reg x = nn then s.pc + 4 else s.pc + 2
  | .sneImm x nn => if s.reg x = nn then s.pc + 2 else s.pc + 4
  | .seReg x y => if s.reg x = s.reg y then s.pc + 4 else s.pc + 2
  | .sneReg x y => if s.reg x = s.reg y then s.pc + 2 else s.pc + 4
  | .skp x => if keyDown s.inputs (s.reg x) then s.pc + 4 else s.pc + 2
  | .sknp x => if keyDown s.inputs (s.reg x) then s.pc + 2 else s.pc + 4
  | .jp nnn | .call nnn => BitVec.ofNat 16 nnn.toNat
  | .jpV0 nnn => BitVec.ofNat 16 ((s.reg 0).toNat + nnn.toNat)
  | .ret => s.stack.toList.getD (s.sp.val - 1) 0
  | .ldVxK _ => if s.inputs.keys = 0 then s.pc else s.pc + 2
  | _ => s.pc + 2

/-! ## Fatal conditions -/

/-- The fatal cause of a read of the `n` bytes from `a`: the lowest address of 0x1000 or more (R62, R64, R204). -/
def readCause (a n : Nat) : Option (FaultCode × Option Nat) :=
  if 0 < n ∧ a + n > 0x1000 then some (.memoryOutOfBounds, some (max a 0x1000)) else none

/-- The fatal cause of a write of the `n` bytes from `a` (R63, R64, R204, R205): out of bounds, or under policy `fault`
the lowest byte in 0x050..0x09F. -/
def writeCause (policy : Config.FontWritePolicy) (a n : Nat) : Option (FaultCode × Option Nat) :=
  if 0 < n ∧ a + n > 0x1000 then some (.memoryOutOfBounds, some (max a 0x1000))
  else if policy = .fault ∧ 0 < n ∧ a < 0x0A0 ∧ a + n > 0x050 then some (.fontRegionWrite, some (max a 0x050))
  else none

/-- The fatal cause of an instruction at `s`, if it has one (R201 to R205, R210). -/
def fatalCause (s : State) : Instr → Option (FaultCode × Option Nat)
  | .call _ => if s.sp.val = 16 then some (.stackOverflow, none) else none
  | .ret => if s.sp.val = 0 then some (.stackUnderflow, none) else none
  | .drw _ _ n => readCause s.i.toNat n.val
  | .ldVxMem x => readCause s.i.toNat (x.val + 1)
  | .ldB _ => writeCause s.fontWritePolicy s.i.toNat 3
  | .ldMemVx x => writeCause s.fontWritePolicy s.i.toNat (x.val + 1)
  | _ => none

/-- `s` halted with this record and NOTHING else changed (R208). -/
def haltedWith (s : State) (r : FaultRecord) : State := { s with halted := true, fault := some r }

/-! ## The sprite in closed form -/

/-- Whether the sprite of `n` rows drawn from (cx, cy) has a set bit on the pixel at column X and row Y: the pixel's
distance from the top-left pixel, modulo 64 and 32, is a column below 8 and a row below n, and that bit, counted from
the most significant, is set (R101). -/
def spriteBitAt (cx cy n : Nat) (sprite : Nat → Byte) (X Y : Nat) : Bool :=
  let col := (X + (64 - cx % 64)) % 64
  let row := (Y + (32 - cy % 32)) % 32
  decide (col < 8) && decide (row < n) && (sprite row).getLsbD (7 - col)

/-! ## The invariant -/

/-- The fault record says what its code means (R33, R201 to R205, R208). -/
def RecordOk (pc : Word) (r : FaultRecord) : Prop :=
  r.addr = pc ∧
  match r.code with
  | .stackOverflow => (∃ nnn, r.word = some (encode (.call nnn))) ∧ r.ea = none
  | .stackUnderflow => r.word = some 0x00EE ∧ r.ea = none
  | .memoryOutOfBounds => ∃ a, r.ea = some a ∧ 0x1000 ≤ a
  | .fontRegionWrite => (∃ w, r.word = some w) ∧ ∃ a, r.ea = some a ∧ 0x050 ≤ a ∧ a ≤ 0x09F
  | .romTooLarge => False

/-- What every step keeps: memory is canonical; the block is halted exactly when it has a record, and the record is
sound; PC is at most 0x10FE, so that it never wraps (R25); every return address on the stack is at most 0x1000 (R113). -/
structure Inv (s : State) : Prop where
  memory : Memory.wf s.mem
  halted_iff : s.halted = s.fault.isSome
  record : ∀ r, s.fault = some r → RecordOk s.pc r
  pc_le : s.pc.toNat ≤ 0x10FE
  stack_le : ∀ k : Fin 16, (s.stack[k]).toNat ≤ 0x1000

/-! ## The end of a run (70_reset_and_hazards.md R240) -/

inductive RunEnd
  /-- The word about to run is a jump to itself: the final state. -/
  | final
  /-- The block is halted; the record is the result. -/
  | faulted
  /-- The word about to run is FX0A and the key state last sampled shows no key (log 24): the run does not end while keys are
  absent. -/
  | waiting
  deriving DecidableEq, Repr

/-- Which end of a run the state shows, if any. R240 (c) does not say which sample of the key port decides "no key down"
between steps. DESIGN CHOICE: it is the key state that `State.inputs` holds, the last one sampled (0 at reset, before any
sample), and not the one that the coming step will draw (log 24). -/
def runEnd (s : State) : Option RunEnd :=
  if s.halted then some .faulted
  else
    match s.fetch with
    | .error _ => none
    | .ok w =>
      match decodeWord w with
      | some (.jp nnn) => if immAddress nnn = s.pc then some .final else none
      | some (.ldVxK _) => if s.inputs.keys = 0 then some .waiting else none
      | _ => none

end Sys2Proof.Machine
end

