-- ==== Sys2Proof/Certificates/Slice0/Obligations.lean ====
section
/-! DEFINITION. The statements for the provers. Each docstring names the rule of spec/ it formalises and, where a clause
rests on a choice (the spec's own decision D<n> of 92_eei_decisions.md, general knowledge G<n> of
93_implementation_defined.md, or the model's own log entry), says so. -/

open Sys2Proof Sys2Proof.Machine

/-! ## Encoding -/

/-- 30_encoding.md R81: the fields are the nibbles op0..op3 from the most significant end, `nn` is nibbles 2–3 and `nnn`
is nibbles 1–3. -/
def Obligations.FieldsAreTheNibbles : Prop :=
  ∀ w : Word,
    (fieldsOf w).op0 ++ (fieldsOf w).x ++ (fieldsOf w).y ++ (fieldsOf w).n = w ∧
    (fieldsOf w).nn = (fieldsOf w).y ++ (fieldsOf w).n ∧
    (fieldsOf w).nnn = (fieldsOf w).x ++ (fieldsOf w).y ++ (fieldsOf w).n

/-- 30_encoding.md R84: the word of each of the 35 instructions, by the hex pattern of its row (most patterns are the
spec's general knowledge G1; which timer word is which transfer is G2). -/
def Obligations.EncodingsAreThePatterns : Prop :=
  ∀ (x y : Reg) (n : Fin 16) (nn : Byte) (nnn : Imm12),
    (encode (.sys nnn)).toNat = nnn.toNat ∧
    (encode .cls).toNat = 0x00E0 ∧
    (encode .ret).toNat = 0x00EE ∧
    (encode (.jp nnn)).toNat = 0x1000 + nnn.toNat ∧
    (encode (.call nnn)).toNat = 0x2000 + nnn.toNat ∧
    (encode (.seImm x nn)).toNat = 0x3000 + 0x100 * x.val + nn.toNat ∧
    (encode (.sneImm x nn)).toNat = 0x4000 + 0x100 * x.val + nn.toNat ∧
    (encode (.seReg x y)).toNat = 0x5000 + 0x100 * x.val + 0x10 * y.val ∧
    (encode (.ldImm x nn)).toNat = 0x6000 + 0x100 * x.val + nn.toNat ∧
    (encode (.addImm x nn)).toNat = 0x7000 + 0x100 * x.val + nn.toNat ∧
    (encode (.ldReg x y)).toNat = 0x8000 + 0x100 * x.val + 0x10 * y.val ∧
    (encode (.orReg x y)).toNat = 0x8001 + 0x100 * x.val + 0x10 * y.val ∧
    (encode (.andReg x y)).toNat = 0x8002 + 0x100 * x.val + 0x10 * y.val ∧
    (encode (.xorReg x y)).toNat = 0x8003 + 0x100 * x.val + 0x10 * y.val ∧
    (encode (.addReg x y)).toNat = 0x8004 + 0x100 * x.val + 0x10 * y.val ∧
    (encode (.subReg x y)).toNat = 0x8005 + 0x100 * x.val + 0x10 * y.val ∧
    (encode (.shr x y)).toNat = 0x8006 + 0x100 * x.val + 0x10 * y.val ∧
    (encode (.subnReg x y)).toNat = 0x8007 + 0x100 * x.val + 0x10 * y.val ∧
    (encode (.shl x y)).toNat = 0x800E + 0x100 * x.val + 0x10 * y.val ∧
    (encode (.sneReg x y)).toNat = 0x9000 + 0x100 * x.val + 0x10 * y.val ∧
    (encode (.ldI nnn)).toNat = 0xA000 + nnn.toNat ∧
    (encode (.jpV0 nnn)).toNat = 0xB000 + nnn.toNat ∧
    (encode (.rnd x nn)).toNat = 0xC000 + 0x100 * x.val + nn.toNat ∧
    (encode (.drw x y n)).toNat = 0xD000 + 0x100 * x.val + 0x10 * y.val + n.val ∧
    (encode (.skp x)).toNat = 0xE09E + 0x100 * x.val ∧
    (encode (.sknp x)).toNat = 0xE0A1 + 0x100 * x.val ∧
    (encode (.ldVxDt x)).toNat = 0xF007 + 0x100 * x.val ∧
    (encode (.ldVxK x)).toNat = 0xF00A + 0x100 * x.val ∧
    (encode (.ldDtVx x)).toNat = 0xF015 + 0x100 * x.val ∧
    (encode (.ldStVx x)).toNat = 0xF018 + 0x100 * x.val ∧
    (encode (.addI x)).toNat = 0xF01E + 0x100 * x.val ∧
    (encode (.ldF x)).toNat = 0xF029 + 0x100 * x.val ∧
    (encode (.ldB x)).toNat = 0xF033 + 0x100 * x.val ∧
    (encode (.ldMemVx x)).toNat = 0xF055 + 0x100 * x.val ∧
    (encode (.ldVxMem x)).toNat = 0xF065 + 0x100 * x.val

/-- 30_encoding.md R96: the six words of the source's scenario, with one word of each other family written out from R84,
decode to their instructions. -/
def Obligations.WordsWrittenOutDecode : Prop :=
  decodeWord 0x00E0 = some .cls ∧ decodeWord 0xA22A = some (.ldI 0x22A) ∧ decodeWord 0x600C = some (.ldImm 0 0x0C) ∧
  decodeWord 0x6108 = some (.ldImm 1 0x08) ∧ decodeWord 0xD01F = some (.drw 0 1 15) ∧
  decodeWord 0x7009 = some (.addImm 0 0x09) ∧ decodeWord 0x2300 = some (.call 0x300) ∧
  decodeWord 0x8AB6 = some (.shr 10 11) ∧ decodeWord 0xF365 = some (.ldVxMem 3) ∧ decodeWord 0xE59E = some (.skp 5)

/-- Encoding and decoding agree, as words and as bytes, and a decoder takes exactly two bytes (30_encoding.md R84, R85,
R88; derived). -/
def Obligations.EncodeThenDecodeGivesTheInstruction : Prop :=
  ∀ i : Instr, wellFormed i = true →
    decodeWord (encode i) = some i ∧ ∀ rest, decode (encodeBytes i ++ rest) = .ok (i, rest)

/-- No bit of a word is lost: the instruction a word decodes to is well-formed and encodes to that word (derived from
R81, R84). -/
def Obligations.DecodeThenEncodeGivesTheWord : Prop :=
  ∀ (w : Word) (i : Instr), decodeWord w = some i → encode i = w ∧ wellFormed i = true

/-- 30_encoding.md R84, R85: the decoder selects the first row of the opcode table, by match and mask, that the word
matches, and no instruction when no row matches. -/
def Obligations.DecoderFollowsTheOpcodeTable : Prop :=
  ∀ w : Word, (decodeWord w).map mnemonicOf = (matchingRow w).map OpcodeRow.mnemonic

/-- 30_encoding.md R85 ([derived] there): apart from SYS no word matches two rows, and SYS is selected exactly by
0x0000..0x0FFF other than 0x00E0 and 0x00EE. -/
def Obligations.OpcodeRowsAreDisjoint : Prop :=
  (∀ (w : Word) (r q : OpcodeRow), r ∈ disjointRows → q ∈ disjointRows →
    r.isMatch w = true → q.isMatch w = true → r = q) ∧
  ∀ w : Word, matchingRow w = some sysRow ↔ w.toNat < 0x1000 ∧ w ≠ 0x00E0 ∧ w ≠ 0x00EE

/-- 30_encoding.md R86, with 60_exceptions.md R207: the exact set of unknown words (the full decoding of the low nibble
is the spec's decision D8), and what such a word does, in the cycle, in a step transaction with any inputs and in the
machine's step: PC + 2, one diagnostic event, nothing else (beyond the boundary before the step, logs 2 to 6; the event
list is the model's output port, log 9). -/
def Obligations.UnknownWordsAreNoOps : Prop :=
  (∀ w : Word, decodeWord w = none ↔
    (w.toNat / 0x1000 = 0x5 ∧ w.toNat % 0x10 ≠ 0) ∨
    (w.toNat / 0x1000 = 0x8 ∧ w.toNat % 0x10 ∈ [0x8, 0x9, 0xA, 0xB, 0xC, 0xD, 0xF]) ∨
    (w.toNat / 0x1000 = 0x9 ∧ w.toNat % 0x10 ≠ 0) ∨
    (w.toNat / 0x1000 = 0xE ∧ w.toNat % 0x100 ∉ [0x9E, 0xA1]) ∨
    (w.toNat / 0x1000 = 0xF ∧ w.toNat % 0x100 ∉ [0x07, 0x0A, 0x15, 0x18, 0x1E, 0x29, 0x33, 0x55, 0x65])) ∧
  ∀ (s : State) (w : Word), s.fetch = .ok w → decodeWord w = none →
    SkipsUnknown (cycle s) s w ∧
    (s.halted = false →
      SkipsUnknown (step s) (environment s) w ∧
      ∀ inp : Inputs, SkipsUnknown (stepWith inp s) { s with inputs := inp } w)

/-! ## The step -/

/-- 30_encoding.md R91, 10_state.md R36: in a running block whose two bytes at PC decode to an instruction, a step is that
instruction's execution: the machine's step after the boundary that the model puts before it (`environment`: free ticks
and sampled inputs, logs 2 to 6), and the step transaction with exactly the given values on the input ports. -/
def Obligations.StepRunsTheDecodedInstruction : Prop :=
  ∀ (s : State) (i : Instr), s.halted = false → s.pc.toNat + 1 < 0x1000 →
    decode [Memory.read s.mem s.pc.toNat, Memory.read s.mem (s.pc.toNat + 1)] = .ok (i, []) →
    step s = exec i (environment s) ∧ ∀ inp : Inputs, stepWith inp s = exec i { s with inputs := inp }

/-- The model's boundary (logs 2 to 6; 10_state.md R36, R37, 60_exceptions.md R214): for SOME number of ticks and SOME
input values, it is that many `tick` transactions and then those values on the input ports; the free-value counter
advances, and nothing else changes. -/
def Obligations.BoundaryIsTicksThenInputs : Prop :=
  ∀ s : State, s.halted = false →
    ∃ (k : Nat) (inp : Inputs), environment s = { tick^[k] s with inputs := inp, samples := s.samples + 1 }

/-- Every step of the machine is one admitted schedule of the interface: some ticks, then one step transaction with some
inputs (60_exceptions.md R214, 10_state.md R36; derived, logs 2 to 6). -/
def Obligations.StepIsOneAdmittedSchedule : Prop :=
  ∀ (p : Params) (s : State), s.halted = false →
    ∃ (k : Nat) (inp : Inputs),
      step s = runSchedule p (List.replicate k .tick ++ [.step inp]) { s with samples := s.samples + 1 }

/-- 20_memory.md R65, R66 (decisions D4, D16): a fetch from PC >= 0x0FFF halts with no word, and `ea` is the lowest byte
address that fails, in the machine's step and in a step transaction with any inputs. Nothing else changes beyond the
boundary that the model puts before its own step (`environment`: free ticks and sampled inputs, the model's choice, logs
2 to 6). -/
def Obligations.FetchPastMemoryHalts : Prop :=
  ∀ s : State, s.halted = false → 0x0FFF ≤ s.pc.toNat →
    ∃ r : FaultRecord,
      r = { code := .memoryOutOfBounds, word := none, addr := s.pc,
            ea := some (if s.pc.toNat = 0x0FFF then 0x1000 else s.pc.toNat) } ∧
      step s = .next (haltedWith (environment s) r) ∧
      ∀ inp : Inputs, stepWith inp s = .next (haltedWith { s with inputs := inp } r)

/-- 30_encoding.md R91 and 60_exceptions.md R208, R215 (decisions D18, D34): after a fatal entry neither a step, with any
inputs, nor a tick has any effect. -/
def Obligations.HaltedBlockIgnoresStepAndTick : Prop :=
  ∀ (s : State) (inp : Inputs), s.halted = true → step s = .next s ∧ stepWith inp s = .next s ∧ tick s = s

/-- No step faults and none is refused: every state, halted or not, legal or not, has a next state (30_encoding.md R87,
60_exceptions.md R208; derived: fatal conditions are next states, log 1). -/
def Obligations.StepAlwaysAnswersANextState : Prop := ∀ s : State, ∃ t, step s = .next t

/-- 60_exceptions.md R208, 30_encoding.md R95 (decisions D4, D18): a step that halts a running block changes nothing but
`halted` and `fault` (beyond the boundary before it, logs 2 to 6), and the record names the instruction's address and the
fetched word, or no word when the fetch failed. -/
def Obligations.FatalStepChangesNothingElse : Prop :=
  ∀ s t : State, s.halted = false → step s = .next t → t.halted = true →
    ∃ r : FaultRecord, t = haltedWith (environment s) r ∧ r.addr = s.pc ∧
      ((s.pc.toNat + 1 < 0x1000 ∧
          r.word = some (wordOfBytes (Memory.read s.mem s.pc.toNat) (Memory.read s.mem (s.pc.toNat + 1)))) ∨
        (0x1000 ≤ s.pc.toNat + 1 ∧ r.word = none))

/-- 60_exceptions.md R201 to R205, R208, R210 (decisions D4, D13, D18, D32): each instruction is fatal exactly on its own
condition, with the code and the lowest failing address of that condition, and then has no effect; on every other state
and operands it completes without touching the status. -/
def Obligations.FatalConditionsAreExactlyTheTaxonomy : Prop :=
  ∀ (i : Instr) (s : State),
    (∀ code ea, fatalCause s i = some (code, ea) →
      exec i s = .next (haltedWith s { code := code, word := some (encode i), addr := s.pc, ea := ea })) ∧
    (fatalCause s i = none → ∃ t, exec i s = .next t ∧ t.halted = s.halted ∧ t.fault = s.fault)

/-- 60_exceptions.md R202, R203: CALL with SP = 16 records code 1 and its own word; RET with SP = 0 records code 2 and the
word 0x00EE; the record's address is PC and it has no memory address. -/
def Obligations.StackFaultsRecordTheInstruction : Prop :=
  FaultCode.stackOverflow.number = 1 ∧ FaultCode.stackUnderflow.number = 2 ∧
  (∀ (nnn : Imm12) (s : State), s.sp.val = 16 →
    ∃ t w, exec (.call nnn) s = .next t ∧ t.halted = true ∧ w.toNat = 0x2000 + nnn.toNat ∧
      t.fault = some { code := .stackOverflow, word := some w, addr := s.pc, ea := none }) ∧
  ∀ s : State, s.sp.val = 0 →
    ∃ t, exec .ret s = .next t ∧ t.halted = true ∧
      t.fault = some { code := .stackUnderflow, word := some 0x00EE, addr := s.pc, ea := none }

/-! ## The whole machine -/

/-- Every step keeps the invariant: canonical memory (log 10), halted exactly with a sound record (R33, R208), PC at most
0x10FE (10_state.md R25 "the largest PC any rule produces is 0x10FE"), return addresses at most 0x1000. Derived. -/
def Obligations.InvariantIsKeptByEveryStep : Prop := ∀ s t : State, Inv s → step s = .next t → Inv t

/-- The invariant holds after reset (derived). -/
def Obligations.InvariantHoldsAtReset : Prop := Inv State.reset

/-- Every schedule of resets, steps with any inputs, ticks and quits keeps the invariant (10_state.md R36,
60_exceptions.md R214 "a claim must hold for every interleaving"; derived). -/
def Obligations.InvariantIsKeptAlongEverySchedule : Prop :=
  ∀ (p : Params) (ts : List Transaction) (s t : State), Inv s → runSchedule p ts s = .next t → Inv t

/-- 20_memory.md R63 (decision D13): under policy `fault` no step changes a byte of the font table, nor the policy. -/
def Obligations.FontTableIsImmutableUnderFaultPolicy : Prop :=
  ∀ s t : State, s.fontWritePolicy = .fault → step s = .next t →
    t.fontWritePolicy = .fault ∧
    ∀ a, 0x050 ≤ a → a ≤ 0x09F → Memory.read t.mem a = Memory.read s.mem a

/-- The "only" sentences of 10_state.md R27, R28, R30, R31, R36 and 20_memory.md R60, as one rule over all instructions
(derived): an instruction that is not a writer of a part leaves it, and no instruction touches the parameter, the input
ports, the model's boundary counter or the diagnostics. -/
def Obligations.OnlyWritersChangeAPart : Prop :=
  ∀ (i : Instr) (s t : State), exec i s = .next t →
    (∀ p, mayChange p i = false → Unchanged s t p) ∧
    t.fontWritePolicy = s.fontWritePolicy ∧ t.inputs = s.inputs ∧ t.samples = s.samples ∧ t.diag = s.diag

/-- 10_state.md R22: an instruction writes its named destination registers, VF if it is one of the six that set it, and no
other register (derived). -/
def Obligations.OnlyNamedRegistersAreWritten : Prop :=
  ∀ (i : Instr) (s t : State) (r : Reg), exec i s = .next t → writesRegister r i = false → t.reg r = s.reg r

/-- 20_memory.md R69: the bytes an instruction may change are the 3 (FX33) or x+1 (FX55) bytes from I; every other byte,
and every byte for any other instruction, reads as before (derived). -/
def Obligations.MemoryChangesOnlyAtTheStoredBytes : Prop :=
  ∀ (i : Instr) (s t : State), exec i s = .next t → MemoryBut (s.effective 0) (storedBytes i) s t

/-- 10_state.md R24 and the table of 30_encoding.md R92: the PC after every instruction that is not fatal (the Wait row is
decision D9, RET's and CALL's targets D3). -/
def Obligations.PcFollowsTheUpdateTable : Prop :=
  ∀ (i : Instr) (s t : State), fatalCause s i = none → exec i s = .next t → t.pc = pcAfter s i

/-- 60_exceptions.md R208, R211, R215 (decisions D18, D34): from a halted state no schedule without a reset changes
anything. -/
def Obligations.HaltLastsUntilReset : Prop :=
  ∀ (p : Params) (ts : List Transaction) (s : State), s.halted = true → (∀ rom, .reset rom ∉ ts) →
    runSchedule p ts s = .next s

/-- 60_exceptions.md R221 (decision D35): `quit` ends the run at its step boundary, changes no state and is no fault. -/
def Obligations.NothingHappensAfterQuit : Prop :=
  ∀ (p : Params) (ts us : List Transaction) (s : State), runSchedule p (ts ++ .quit :: us) s = runSchedule p ts s

/-- 60_exceptions.md R206 (decision D25): a schedule ends in a next state, or in the rejection of an oversize ROM that it
holds; nothing else stops it, and nothing is refused. That the rejection is `Outcome.fault` and carries the ROM's length
is the model's choice (log 19): no rule gives it a length. -/
def Obligations.SchedulesStopOnlyAtAnOversizeRom : Prop :=
  ∀ (p : Params) (ts : List Transaction) (s : State),
    (∃ t, runSchedule p ts s = .next t) ∨
    ∃ rom, .reset rom ∈ ts ∧ 3584 < rom.length ∧ runSchedule p ts s = .fault (.romTooLarge rom.length)

/-- 60_exceptions.md R200 and 10_state.md R36: the input ports reach only the instructions that poll them; for every
other instruction, other inputs give the same next state but for the ports themselves (derived). -/
def Obligations.InputsReachOnlyThePollingInstructions : Prop :=
  ∀ (i : Instr) (s t : State) (inp : Inputs),
    (∀ x, i ≠ .skp x) → (∀ x, i ≠ .sknp x) → (∀ x, i ≠ .ldVxK x) → (∀ x nn, i ≠ .rnd x nn) →
    exec i s = .next t → exec i { s with inputs := inp } = .next { t with inputs := inp }

/-- 10_state.md R31 "No instruction reads ST": another value of ST changes nothing in the next state but ST itself, and not
even that after FX18 (derived). -/
def Obligations.SoundTimerIsNeverRead : Prop :=
  ∀ (i : Instr) (s t : State) (b : Byte), exec i s = .next t →
    ((∀ x, i ≠ .ldStVx x) → exec i { s with st := b } = .next { t with st := b }) ∧
    ((∃ x, i = .ldStVx x) → exec i { s with st := b } = .next t)

/-- 20_memory.md R75, R235 ([derived] there): the two bytes FX55 stores first are the word the engine fetches at I from
then on. -/
def Obligations.StoredWordIsFetchedNext : Prop :=
  ∀ (x : Reg) (s : State), 1 ≤ x.val → s.effective 0 + x.val + 1 ≤ 0x1000 →
    (s.fontWritePolicy = .write ∨ s.effective 0 + x.val + 1 ≤ 0x050 ∨ 0x0A0 ≤ s.effective 0) →
    ∃ t, exec (.ldMemVx x) s = .next t ∧
      ∀ u : State, u.mem = t.mem → u.pc = s.i → u.fetch = .ok (wordOfBytes (s.reg 0) (s.reg 1))

/-! ## Timers, reset and the end of a run -/

/-- 60_exceptions.md R213: a tick of a running block decrements each timer by 1, clamped at 0, and changes nothing else; a
halted block does not tick; both timers are 0 after reset. -/
def Obligations.TickDecrementsBothTimers : Prop :=
  (∀ s : State,
    (s.halted = true → tick s = s) ∧
    (s.halted = false →
      (tick s).dt.toNat = s.dt.toNat - 1 ∧ (tick s).st.toNat = s.st.toNat - 1 ∧
      tick s = { s with dt := (tick s).dt, st := (tick s).st })) ∧
  State.reset.dt = 0 ∧ State.reset.st = 0

/-- 70_reset_and_hazards.md R237 ([derived] there): after any number k of ticks the timers are max(0, v - k). -/
def Obligations.TimersCountDownToZero : Prop :=
  ∀ (p : Params) (k : Nat) (s : State), s.halted = false →
    ∃ t, runSchedule p (List.replicate k .tick) s = .next t ∧
      t.dt.toNat = s.dt.toNat - k ∧ t.st.toNat = s.st.toNat - k ∧ t = { s with dt := t.dt, st := t.st }

/-- 10_state.md R36, R40, 70_reset_and_hazards.md R230, R231 (0x00 outside font and ROM is decision D5, the clear
framebuffer D6): what `reset(rom)` builds from any ROM of at most 3584 bytes and any parameters, as a load and as the
transaction from ANY state, halted or not (60_exceptions.md R208, R211: reset starts a halted block again); a schedule
goes on from there. That the transaction keeps the draw counters and the emitted events is the model's choice (log 12; a
fatal report is not kept, log 23), and so are the idle input ports (logs 2 to 5). -/
def Obligations.ResetBuildsTheDocumentedState : Prop :=
  ∀ (p : Params) (rom : List Byte), rom.length ≤ 3584 →
    (∃ t, loadRom p rom = .next t ∧ BuiltByReset p rom t ∧ t.samples = 0 ∧ t.randDraws = 0 ∧ t.diag = []) ∧
    ∀ s : State, ∃ t, transact p (.reset rom) s = .next t ∧ BuiltByReset p rom t ∧
      t.samples = s.samples ∧ t.randDraws = s.randDraws ∧ t.diag = s.diag ∧
      ∀ ts, runSchedule p (.reset rom :: ts) s = runSchedule p ts t

/-- `State.reset` is `reset` of the empty ROM with the spec's default parameters (decision D13; log 11), and its font table
holds the 80 default bytes of 20_memory.md R76, glyph by glyph (general knowledge G3, PRESUMED in log 8), which are the
default `FONT_DATA`. -/
def Obligations.ResetStateIsTheEmptyRom : Prop :=
  loadRom defaultParams [] = .next State.reset ∧
  defaultParams.fontWritePolicy = .fault ∧
  (List.range 80).map (fun k => Memory.read State.reset.mem (0x050 + k)) = defaultParams.fontData.toList ∧
  defaultParams.fontData.toList =
    [0xF0, 0x90, 0x90, 0x90, 0xF0] ++ [0x20, 0x60, 0x20, 0x20, 0x70] ++
    [0xF0, 0x10, 0xF0, 0x80, 0xF0] ++ [0xF0, 0x10, 0xF0, 0x10, 0xF0] ++
    [0x90, 0x90, 0xF0, 0x10, 0x10] ++ [0xF0, 0x80, 0xF0, 0x10, 0xF0] ++
    [0xF0, 0x80, 0xF0, 0x90, 0xF0] ++ [0xF0, 0x10, 0x20, 0x40, 0x40] ++
    [0xF0, 0x90, 0xF0, 0x90, 0xF0] ++ [0xF0, 0x90, 0xF0, 0x10, 0xF0] ++
    [0xF0, 0x90, 0xF0, 0x90, 0x90] ++ [0xE0, 0x90, 0xE0, 0x90, 0xE0] ++
    [0xF0, 0x80, 0x80, 0x80, 0xF0] ++ [0xE0, 0x90, 0x90, 0x90, 0xE0] ++
    [0xF0, 0x80, 0xF0, 0x80, 0xF0] ++ [0xF0, 0x80, 0xF0, 0x80, 0x80]

/-- 60_exceptions.md R206, 70_reset_and_hazards.md R231 (decision D25): a longer ROM is rejected, whatever follows in the
schedule: nothing runs. That the rejection is `Outcome.fault` and carries the ROM's length is the model's choice (log 19):
no rule gives it a length. -/
def Obligations.OversizeRomIsRejected : Prop :=
  ∀ (p : Params) (rom : List Byte) (ts : List Transaction) (s : State), 3584 < rom.length →
    loadRom p rom = .fault (.romTooLarge rom.length) ∧
    runSchedule p (.reset rom :: ts) s = .fault (.romTooLarge rom.length)

/-- 70_reset_and_hazards.md R240 (decision D24): a running block is final exactly at a jump to its own address and waiting
exactly at FX0A with no key down, and a halted one is faulted; in the final and the waiting state the step transaction
with the inputs as they are changes nothing. That the keys are those the state's input ports hold, and not those the coming
step will draw, is the model's choice (log 24). -/
def Obligations.EndOfRunStatesStand : Prop :=
  ∀ s : State,
    (runEnd s = some .faulted ↔ s.halted = true) ∧
    (runEnd s = some .final ↔
      s.halted = false ∧ ∃ nnn : Imm12, nnn.toNat = s.pc.toNat ∧ s.fetch = .ok (encode (.jp nnn))) ∧
    (runEnd s = some .waiting ↔
      s.halted = false ∧ s.inputs.keys = 0 ∧ ∃ x : Reg, s.fetch = .ok (encode (.ldVxK x))) ∧
    (runEnd s = some .final ∨ runEnd s = some .waiting → stepWith s.inputs s = .next s)

/-! ## Registers and ALU -/

/-- 42_alu.md R130 to R135: the six instructions that write a register and no flag, with their words (patterns G1). With
x = F the destination is VF like any other. -/
def Obligations.LoadsAndLogicWriteTheirResult : Prop :=
  ∀ (x y : Reg) (nn : Byte) (s : State),
    (SetsRegister (.ldImm x nn) s x nn.toNat ∧
      (encode (.ldImm x nn)).toNat = 0x6000 + 0x100 * x.val + nn.toNat) ∧
    (SetsRegister (.addImm x nn) s x (((s.reg x).toNat + nn.toNat) % 256) ∧
      (encode (.addImm x nn)).toNat = 0x7000 + 0x100 * x.val + nn.toNat) ∧
    (SetsRegister (.ldReg x y) s x (s.reg y).toNat ∧
      (encode (.ldReg x y)).toNat = 0x8000 + 0x100 * x.val + 0x10 * y.val) ∧
    (SetsRegister (.orReg x y) s x ((s.reg x).toNat ||| (s.reg y).toNat) ∧
      (encode (.orReg x y)).toNat = 0x8001 + 0x100 * x.val + 0x10 * y.val) ∧
    (SetsRegister (.andReg x y) s x ((s.reg x).toNat &&& (s.reg y).toNat) ∧
      (encode (.andReg x y)).toNat = 0x8002 + 0x100 * x.val + 0x10 * y.val) ∧
    (SetsRegister (.xorReg x y) s x ((s.reg x).toNat ^^^ (s.reg y).toNat) ∧
      (encode (.xorReg x y)).toNat = 0x8003 + 0x100 * x.val + 0x10 * y.val)

/-- 42_alu.md R136: Vx + Vy modulo 256, VF = carry. With x = F the flag stays (decision D1); operands are the values before
the instruction (D2). -/
def Obligations.AddSetsTheCarry : Prop :=
  ∀ (x y : Reg) (s : State),
    SetsRegisterAndFlag (.addReg x y) s x (((s.reg x).toNat + (s.reg y).toNat) % 256)
      (if (s.reg x).toNat + (s.reg y).toNat > 255 then 1 else 0)

/-- 42_alu.md R137, R139: the difference modulo 256, VF = 1 iff no borrow. With x = F the flag stays (decision D1). -/
def Obligations.SubtractionsSetNotBorrow : Prop :=
  ∀ (x y : Reg) (s : State),
    SetsRegisterAndFlag (.subReg x y) s x (((s.reg x).toNat + 256 - (s.reg y).toNat) % 256)
      (if (s.reg x).toNat ≥ (s.reg y).toNat then 1 else 0) ∧
    SetsRegisterAndFlag (.subnReg x y) s x (((s.reg y).toNat + 256 - (s.reg x).toNat) % 256)
      (if (s.reg y).toNat ≥ (s.reg x).toNat then 1 else 0)

/-- 42_alu.md R138, R140: logical shifts of Vx by one, VF = the bit shifted out; Vy plays no part, whatever y is. With
x = F the flag stays (decision D1). -/
def Obligations.ShiftsSetTheBitShiftedOut : Prop :=
  ∀ (x y : Reg) (s : State),
    SetsRegisterAndFlag (.shr x y) s x ((s.reg x).toNat / 2) ((s.reg x).toNat % 2) ∧
    SetsRegisterAndFlag (.shl x y) s x ((s.reg x).toNat * 2 % 256) ((s.reg x).toNat / 128)

/-- 42_alu.md R141 (decision D20), for EVERY byte the RAND port may hold: the byte masked by nn, every bit outside nn 0,
and exactly one draw consumed (the count is the model's, log 3). -/
def Obligations.RandomByteIsMasked : Prop :=
  ∀ (x : Reg) (nn : Byte) (s : State),
    ∃ t, exec (.rnd x nn) s = .next t ∧ t.reg x = s.inputs.rand &&& nn ∧
      (∀ k, nn.getLsbD k = false → (t.reg x).getLsbD k = false) ∧ t.randDraws = s.randDraws + 1 ∧
      RegsBut [x] s t ∧ t.pc = s.pc + 2 ∧ OnlyChanges [.registers, .draws] s t

/-! ## Index register and memory -/

/-- 43_index_memory.md R160, R161, R162: I := nnn; I := (I + Vx) mod 2^16 with no flag (decision D17); I := 0x050 + 5 Vx
with Vx not masked (decision D12). -/
def Obligations.IndexInstructionsSetTheIndex : Prop :=
  ∀ (x : Reg) (nnn : Imm12) (s : State),
    (∃ t, exec (.ldI nnn) s = .next t ∧ t.i.toNat = nnn.toNat ∧ t.pc = s.pc + 2 ∧ OnlyChanges [.index] s t) ∧
    (∃ t, exec (.addI x) s = .next t ∧ t.i.toNat = (s.i.toNat + (s.reg x).toNat) % 0x10000 ∧ t.pc = s.pc + 2 ∧
      OnlyChanges [.index] s t) ∧
    (∃ t, exec (.ldF x) s = .next t ∧ t.i.toNat = 0x050 + 5 * (s.reg x).toNat ∧ t.pc = s.pc + 2 ∧
      OnlyChanges [.index] s t)

/-- 43_index_memory.md R163: FX33 stores the decimal digits of Vx at I, I+1, I+2 when those bytes may be written (decisions
D4, D13; where not, FatalConditionsAreExactlyTheTaxonomy), and no other byte. -/
def Obligations.BcdDigitsAreStored : Prop :=
  ∀ (x : Reg) (s : State), s.effective 0 + 3 ≤ 0x1000 →
    (s.fontWritePolicy = .write ∨ s.effective 0 + 3 ≤ 0x050 ∨ 0x0A0 ≤ s.effective 0) →
    ∃ t, exec (.ldB x) s = .next t ∧
      (∃ h d o : Nat, h ≤ 2 ∧ d ≤ 9 ∧ o ≤ 9 ∧ 100 * h + 10 * d + o = (s.reg x).toNat ∧
        (Memory.read t.mem (s.effective 0)).toNat = h ∧ (Memory.read t.mem (s.effective 1)).toNat = d ∧
        (Memory.read t.mem (s.effective 2)).toNat = o) ∧
      MemoryBut (s.effective 0) 3 s t ∧ t.pc = s.pc + 2 ∧ OnlyChanges [.memory] s t

/-- 43_index_memory.md R164: FX55 stores V0..Vx at I..I+x when those bytes may be written (decisions D4, D13), no other
byte, and leaves I (D11). -/
def Obligations.RegisterDumpStoresThroughVx : Prop :=
  ∀ (x : Reg) (s : State), s.effective 0 + x.val + 1 ≤ 0x1000 →
    (s.fontWritePolicy = .write ∨ s.effective 0 + x.val + 1 ≤ 0x050 ∨ 0x0A0 ≤ s.effective 0) →
    ∃ t, exec (.ldMemVx x) s = .next t ∧
      (∀ k : Reg, k.val ≤ x.val → Memory.read t.mem (s.effective k.val) = s.reg k) ∧
      MemoryBut (s.effective 0) (x.val + 1) s t ∧ t.pc = s.pc + 2 ∧ OnlyChanges [.memory] s t

/-- 43_index_memory.md R165: FX65 loads V0..Vx from I..I+x when those bytes exist (decision D4), no other register, and
leaves I (D11). -/
def Obligations.RegisterLoadLoadsThroughVx : Prop :=
  ∀ (x : Reg) (s : State), s.effective 0 + x.val + 1 ≤ 0x1000 →
    ∃ t, exec (.ldVxMem x) s = .next t ∧
      (∀ k : Reg, k.val ≤ x.val → t.reg k = Memory.read s.mem (s.effective k.val)) ∧
      (∀ k : Reg, x.val < k.val → t.reg k = s.reg k) ∧ t.pc = s.pc + 2 ∧ OnlyChanges [.registers] s t

/-- From 43_index_memory.md R164 and R165 (derived; decisions D4, D11, D13): what FX55 dumped, FX65 loads back, whatever
the registers hold in between, as long as memory and I are as the dump left them. -/
def Obligations.DumpThenLoadRestoresRegisters : Prop :=
  ∀ (x : Reg) (s : State), s.effective 0 + x.val + 1 ≤ 0x1000 →
    (s.fontWritePolicy = .write ∨ s.effective 0 + x.val + 1 ≤ 0x050 ∨ 0x0A0 ≤ s.effective 0) →
    ∃ t, exec (.ldMemVx x) s = .next t ∧
      ∀ u : State, u.mem = t.mem → u.i = t.i →
        ∃ v, exec (.ldVxMem x) u = .next v ∧ ∀ k : Reg, k.val ≤ x.val → v.reg k = s.reg k

/-! ## Control transfer -/

/-- 41_control.md R110 (decision D7): SYS is a no-op that emits no event. -/
def Obligations.SysIsANoOp : Prop := ∀ (nnn : Imm12) (s : State), OnlyMovesPc (.sys nnn) s (s.pc + 2)

/-- 41_control.md R114 to R117 (the last two by decision D8): each skip goes on at PC + 4 or PC + 2 by its comparison and
changes nothing else. -/
def Obligations.SkipsTestTheirOperands : Prop :=
  ∀ (x y : Reg) (nn : Byte) (s : State),
    OnlyMovesPc (.seImm x nn) s (if s.reg x = nn then s.pc + 4 else s.pc + 2) ∧
    OnlyMovesPc (.sneImm x nn) s (if s.reg x ≠ nn then s.pc + 4 else s.pc + 2) ∧
    OnlyMovesPc (.seReg x y) s (if s.reg x = s.reg y then s.pc + 4 else s.pc + 2) ∧
    OnlyMovesPc (.sneReg x y) s (if s.reg x ≠ s.reg y then s.pc + 4 else s.pc + 2)

/-- 41_control.md R112: PC := nnn, nothing else; any target, odd ones and its own address included (pattern G1). -/
def Obligations.JumpGoesToItsTarget : Prop :=
  ∀ (nnn : Imm12) (s : State),
    (∃ t, exec (.jp nnn) s = .next t ∧ t.pc.toNat = nnn.toNat ∧ OnlyChanges [] s t) ∧
    (encode (.jp nnn)).toNat = 0x1000 + nnn.toNat

/-- 41_control.md R118 (decision D16): PC := V0 + nnn, at most 0x10FE and not reduced, nothing else. -/
def Obligations.JumpWithOffsetAddsV0 : Prop :=
  ∀ (nnn : Imm12) (s : State),
    ∃ t, exec (.jpV0 nnn) s = .next t ∧ t.pc.toNat = (s.reg 0).toNat + nnn.toNat ∧ t.pc.toNat ≤ 0x10FE ∧
      OnlyChanges [] s t

/-- 41_control.md R113 (decision D3): below the limit CALL pushes PC + 2 in the next free entry and jumps; no other entry
changes. -/
def Obligations.CallPushesTheNextAddress : Prop :=
  ∀ (nnn : Imm12) (s : State), s.sp.val < 16 →
    ∃ t, exec (.call nnn) s = .next t ∧ t.sp.val = s.sp.val + 1 ∧
      (∀ k : Fin 16, t.stack[k] = if k.val = s.sp.val then s.pc + 2 else s.stack[k]) ∧
      t.pc.toNat = nnn.toNat ∧ OnlyChanges [.stack] s t

/-- 41_control.md R111 (decision D3): on a stack that is not empty RET goes to the entry below SP as it is stored; no entry
changes (decision D19). -/
def Obligations.ReturnPopsTheStack : Prop :=
  ∀ s : State, 0 < s.sp.val →
    ∃ t, exec .ret s = .next t ∧ t.sp.val + 1 = s.sp.val ∧
      (∀ k : Fin 16, k.val + 1 = s.sp.val → t.pc = s.stack[k]) ∧ t.stack = s.stack ∧ OnlyChanges [.stack] s t

/-- 41_control.md R119 ([derived] there; decision D3): a RET that finds the entry a CALL pushed continues after the call,
with SP back to its value before it, whatever else happened in between. -/
def Obligations.CallThenReturnContinuesAfterTheCall : Prop :=
  ∀ (nnn : Imm12) (s : State), s.sp.val < 16 →
    ∃ t, exec (.call nnn) s = .next t ∧
      ∀ u : State, u.sp = t.sp → (∀ k : Fin 16, k.val = s.sp.val → u.stack[k] = t.stack[k]) →
        ∃ v, exec .ret u = .next v ∧ v.pc = s.pc + 2 ∧ v.sp = s.sp

/-! ## Display -/

/-- 40_display.md R100: CLS zeroes every pixel, changes nothing else (no register, so VF stays) and goes on at PC + 2; its
word is 0x00E0 and no other. -/
def Obligations.ClearScreenZeroesEveryPixel : Prop :=
  (∀ s : State, ∃ t, exec .cls s = .next t ∧ (∀ X Y, X < 64 → Y < 32 → Framebuffer.pixel t.fb X Y = false) ∧
    t.pc = s.pc + 2 ∧ OnlyChanges [.screen] s t) ∧
  encode .cls = 0x00E0 ∧ ∀ w : Word, decodeWord w = some .cls ↔ w = 0x00E0

/-- 40_display.md R101 against its closed form (decisions D2, D4): when the sprite's bytes exist, or n = 0, every pixel is
XORed with the sprite's bit on it, wrapping on both axes; VF tells whether a set pixel was cleared; coordinates are the
values before the instruction. -/
def Obligations.DrawXorsTheSprite : Prop :=
  ∀ (x y : Reg) (n : Fin 16) (s : State), n.val = 0 ∨ s.effective 0 + n.val ≤ 0x1000 →
    ∃ t, exec (.drw x y n) s = .next t ∧
      (∀ X Y, X < 64 → Y < 32 →
        Framebuffer.pixel t.fb X Y =
          (Framebuffer.pixel s.fb X Y ^^
            spriteBitAt (s.reg x).toNat (s.reg y).toNat n.val (fun row => Memory.read s.mem (s.effective row)) X Y)) ∧
      (t.reg vf = 1 ∨ t.reg vf = 0) ∧
      (t.reg vf = 1 ↔
        ∃ X Y, X < 64 ∧ Y < 32 ∧ Framebuffer.pixel s.fb X Y = true ∧
          spriteBitAt (s.reg x).toNat (s.reg y).toNat n.val (fun row => Memory.read s.mem (s.effective row)) X Y = true) ∧
      RegsBut [vf] s t ∧ t.pc = s.pc + 2 ∧ OnlyChanges [.registers, .screen] s t

/-- 40_display.md R102 (its VF clause is [derived] there): with coordinates not in VF, drawing twice restores the
framebuffer exactly, and the second draw collides iff the sprite has a set bit on a pixel that was 0 before the first. -/
def Obligations.DrawTwiceRestoresTheScreen : Prop :=
  ∀ (x y : Reg) (n : Fin 16) (s : State), x ≠ vf → y ≠ vf → n.val = 0 ∨ s.effective 0 + n.val ≤ 0x1000 →
    ∃ t u, exec (.drw x y n) s = .next t ∧ exec (.drw x y n) t = .next u ∧ u.fb = s.fb ∧
      (u.reg vf = 1 ↔
        ∃ X Y, X < 64 ∧ Y < 32 ∧ Framebuffer.pixel s.fb X Y = false ∧
          spriteBitAt (s.reg x).toNat (s.reg y).toNat n.val (fun row => Memory.read s.mem (s.effective row)) X Y = true)

/-! ## Keys and timers -/

/-- 44_input_timers.md R180, R181, R186: the key skips test the key port's bit for a key 0..15; above 15 the spec leaves the
answer free (decision D10), and both answers occur, by the free port value, whatever the key port holds (the model's
choice where no input collaborator is connected, log 4). -/
def Obligations.KeySkipsPollTheKey : Prop :=
  ∀ (x : Reg) (s : State),
    ((s.reg x).toNat ≤ 15 →
      OnlyMovesPc (.skp x) s (if s.inputs.keys.getLsbD (s.reg x).toNat then s.pc + 4 else s.pc + 2) ∧
      OnlyMovesPc (.sknp x) s (if s.inputs.keys.getLsbD (s.reg x).toNat then s.pc + 2 else s.pc + 4)) ∧
    (15 < (s.reg x).toNat → ∀ b : Bool,
      OnlyMovesPc (.skp x) { s with inputs := { s.inputs with outsideKey := b } } (if b then s.pc + 4 else s.pc + 2) ∧
      OnlyMovesPc (.sknp x) { s with inputs := { s.inputs with outsideKey := b } } (if b then s.pc + 2 else s.pc + 4))

/-- 44_input_timers.md R182 (decision D9): with no key down nothing changes, PC included; with keys down Vx becomes a key
that is down; and every key that is down is the result for some value of the free choice (log 5). -/
def Obligations.WaitForKeyTakesADownKey : Prop :=
  ∀ (x : Reg) (s : State),
    (s.inputs.keys = 0 → exec (.ldVxK x) s = .next s) ∧
    (s.inputs.keys ≠ 0 →
      ∃ k, k < 16 ∧ s.inputs.keys.getLsbD k = true ∧ SetsRegister (.ldVxK x) s x k) ∧
    (∀ k, k < 16 → s.inputs.keys.getLsbD k = true →
      ∃ pick, SetsRegister (.ldVxK x) { s with inputs := { s.inputs with keyPick := pick } } x k)

/-- 44_input_timers.md R183, R184, R185 (which word is which transfer is G2): Vx := DT, DT := Vx, ST := Vx, nothing else. -/
def Obligations.TimerTransfersCopyOneValue : Prop :=
  ∀ (x : Reg) (s : State),
    SetsRegister (.ldVxDt x) s x s.dt.toNat ∧
    (∃ t, exec (.ldDtVx x) s = .next t ∧ t.dt = s.reg x ∧ t.pc = s.pc + 2 ∧ OnlyChanges [.delay] s t) ∧
    (∃ t, exec (.ldStVx x) s = .next t ∧ t.st = s.reg x ∧ t.pc = s.pc + 2 ∧ OnlyChanges [.sound] s t)
end

