-- ==== Sys2Proof/Laws/Decode.lean ====
section
/-! SUPPORT. The fields of a packed word, the packed word as a number, a word from its bytes, and both directions between
words and instructions. -/

namespace Sys2Proof

/-! ## Fields as numbers (R81) -/

theorem toNat_op0 (w : Word) : (fieldsOf w).op0.toNat = w.toNat / 4096 := by
  have := w.isLt
  simp only [fieldsOf, BitVec.extractLsb'_toNat, Nat.shiftRight_eq_div_pow]; omega

theorem toNat_x (w : Word) : (fieldsOf w).x.toNat = w.toNat / 256 % 16 := by
  simp only [fieldsOf, BitVec.extractLsb'_toNat, Nat.shiftRight_eq_div_pow]

theorem toNat_y (w : Word) : (fieldsOf w).y.toNat = w.toNat / 16 % 16 := by
  simp only [fieldsOf, BitVec.extractLsb'_toNat, Nat.shiftRight_eq_div_pow]

theorem toNat_n (w : Word) : (fieldsOf w).n.toNat = w.toNat % 16 := by
  simp only [fieldsOf, BitVec.extractLsb'_toNat, Nat.shiftRight_eq_div_pow]; omega

theorem toNat_nn (w : Word) : (fieldsOf w).nn.toNat = w.toNat % 256 := by
  simp only [fieldsOf, BitVec.extractLsb'_toNat, Nat.shiftRight_eq_div_pow]; omega

theorem toNat_nnn (w : Word) : (fieldsOf w).nnn.toNat = w.toNat % 4096 := by
  simp only [fieldsOf, BitVec.extractLsb'_toNat, Nat.shiftRight_eq_div_pow]; omega

/-- A bit vector joined to another, as a number. -/
theorem toNat_join {m n : Nat} (a : BitVec m) (b : BitVec n) : (a ++ b).toNat = a.toNat * 2 ^ n + b.toNat := by
  rw [BitVec.toNat_append, ← Nat.shiftLeft_add_eq_or_of_lt b.isLt, Nat.shiftLeft_eq]

@[simp] theorem toNat_nibbleOfFin (r : Fin 16) : (nibbleOfFin r).toNat = r.val := by
  have := r.isLt
  simp [nibbleOfFin]

@[simp] theorem regOfNibble_val (b : Nibble) : (regOfNibble b).val = b.toNat := rfl

@[simp] theorem regOfNibble_nibbleOfFin (r : Fin 16) : regOfNibble (nibbleOfFin r) = r := by
  apply Fin.ext; simp

@[simp] theorem nibbleOfFin_regOfNibble (b : Nibble) : nibbleOfFin (regOfNibble b) = b := by
  apply BitVec.eq_of_toNat_eq; simp

/-! ## Packed words -/

theorem toNat_packNnn (op : Nibble) (nnn : Imm12) : (packNnn op nnn).toNat = op.toNat * 4096 + nnn.toNat := by
  unfold packNnn; exact toNat_join op nnn

theorem toNat_packXnn (op : Nibble) (x : Reg) (nn : Byte) :
    (packXnn op x nn).toNat = op.toNat * 4096 + x.val * 256 + nn.toNat := by
  unfold packXnn
  refine (toNat_join (op ++ nibbleOfFin x) nn).trans ?_
  rw [toNat_join, toNat_nibbleOfFin]; omega

theorem toNat_packXyn (op : Nibble) (x y : Reg) (n : Nibble) :
    (packXyn op x y n).toNat = op.toNat * 4096 + x.val * 256 + y.val * 16 + n.toNat := by
  unfold packXyn
  refine (toNat_join (op ++ nibbleOfFin x ++ nibbleOfFin y) n).trans ?_
  rw [toNat_join, toNat_join, toNat_nibbleOfFin, toNat_nibbleOfFin]; omega

theorem fields_packNnn (op : Nibble) (nnn : Imm12) :
    (fieldsOf (packNnn op nnn)).op0 = op ∧ (fieldsOf (packNnn op nnn)).nnn = nnn := by
  have h := toNat_packNnn op nnn
  have h1 := op.isLt
  have h2 := nnn.isLt
  constructor <;> apply BitVec.eq_of_toNat_eq
  · rw [toNat_op0, h]; omega
  · rw [toNat_nnn, h]; omega

theorem fields_packXnn (op : Nibble) (x : Reg) (nn : Byte) :
    (fieldsOf (packXnn op x nn)).op0 = op ∧ regOfNibble (fieldsOf (packXnn op x nn)).x = x ∧
      (fieldsOf (packXnn op x nn)).nn = nn := by
  have h := toNat_packXnn op x nn
  have h1 := op.isLt
  have h2 := nn.isLt
  have h3 := x.isLt
  refine ⟨BitVec.eq_of_toNat_eq ?_, Fin.ext ?_, BitVec.eq_of_toNat_eq ?_⟩
  · rw [toNat_op0, h]; omega
  · rw [regOfNibble_val, toNat_x, h]; omega
  · rw [toNat_nn, h]; omega

theorem fields_packXyn (op : Nibble) (x y : Reg) (n : Nibble) :
    (fieldsOf (packXyn op x y n)).op0 = op ∧ regOfNibble (fieldsOf (packXyn op x y n)).x = x ∧
      regOfNibble (fieldsOf (packXyn op x y n)).y = y ∧ (fieldsOf (packXyn op x y n)).n = n := by
  have h := toNat_packXyn op x y n
  have h1 := op.isLt
  have h2 := n.isLt
  have h3 := x.isLt
  have h4 := y.isLt
  refine ⟨BitVec.eq_of_toNat_eq ?_, Fin.ext ?_, Fin.ext ?_, BitVec.eq_of_toNat_eq ?_⟩
  · rw [toNat_op0, h]; omega
  · rw [regOfNibble_val, toNat_x, h]; omega
  · rw [regOfNibble_val, toNat_y, h]; omega
  · rw [toNat_n, h]; omega

/-! ## A word and its two bytes (R65) -/

@[simp] theorem wordOfBytes_high_low (w : Word) : wordOfBytes (highByte w) (lowByte w) = w := by
  apply BitVec.eq_of_toNat_eq
  have := w.isLt
  unfold wordOfBytes
  refine (toNat_join (highByte w) (lowByte w)).trans ?_
  simp only [highByte, lowByte, BitVec.extractLsb'_toNat, Nat.shiftRight_eq_div_pow]; omega

theorem decode_encodeBytes {i : Instr} (h : decodeWord (encode i) = some i) (rest : List Byte) :
    decode (encodeBytes i ++ rest) = .ok (i, rest) := by
  simp [decode, encodeBytes, h]

/-! ## Rebuilding a word from its fields -/

theorem packNnn_fields {w : Word} {op : Nibble} (h : (fieldsOf w).op0 = op) : packNnn op (fieldsOf w).nnn = w := by
  apply BitVec.eq_of_toNat_eq
  have h1 := toNat_op0 w
  have h2 := toNat_nnn w
  rw [toNat_packNnn, ← h]; omega

theorem packXnn_fields {w : Word} {op : Nibble} {nn : Byte} (h : (fieldsOf w).op0 = op) (hn : (fieldsOf w).nn = nn) :
    packXnn op (regOfNibble (fieldsOf w).x) nn = w := by
  apply BitVec.eq_of_toNat_eq
  have h1 := toNat_op0 w
  have h2 := toNat_x w
  have h3 := toNat_nn w
  rw [toNat_packXnn, ← h, ← hn, regOfNibble_val]; omega

theorem packXyn_fields {w : Word} {op : Nibble} {n : Nibble} (h : (fieldsOf w).op0 = op) (hn : (fieldsOf w).n = n) :
    packXyn op (regOfNibble (fieldsOf w).x) (regOfNibble (fieldsOf w).y) n = w := by
  apply BitVec.eq_of_toNat_eq
  have h1 := toNat_op0 w
  have h2 := toNat_x w
  have h3 := toNat_y w
  have h4 := toNat_n w
  rw [toNat_packXyn, ← h, ← hn, regOfNibble_val, regOfNibble_val]; omega

/-! ## The masks of R84 -/

theorem and_packNnn (op : Nibble) (nnn : Imm12) : packNnn op nnn &&& 0xF000 = packNnn op 0 := by
  show (op ++ nnn) &&& ((0xF#4 : Nibble) ++ (0#12 : Imm12)) = op ++ (0#12 : Imm12)
  rw [BitVec.and_append]
  congr 1
  · exact BitVec.and_allOnes
  · exact BitVec.and_zero

theorem and_packXnn (op : Nibble) (x : Reg) (nn : Byte) : packXnn op x nn &&& 0xF0FF = packXnn op 0 nn := by
  show ((op ++ nibbleOfFin x) ++ nn) &&& (((0xF#4 : Nibble) ++ (0#4 : Nibble)) ++ (0xFF#8 : Byte)) = (op ++ (0#4 : Nibble)) ++ nn
  rw [BitVec.and_append, BitVec.and_append]
  congr 1
  · congr 1
    · exact BitVec.and_allOnes
    · exact BitVec.and_zero
  · exact BitVec.and_allOnes

theorem and_packXyn (op : Nibble) (x y : Reg) (n : Nibble) : packXyn op x y n &&& 0xF00F = packXyn op 0 0 n := by
  show (((op ++ nibbleOfFin x) ++ nibbleOfFin y) ++ n) &&&
    ((((0xF#4 : Nibble) ++ (0#4 : Nibble)) ++ (0#4 : Nibble)) ++ (0xF#4 : Nibble)) =
      ((op ++ (0#4 : Nibble)) ++ (0#4 : Nibble)) ++ n
  rw [BitVec.and_append, BitVec.and_append, BitVec.and_append]
  congr 1
  · congr 1
    · congr 1
      · exact BitVec.and_allOnes
      · exact BitVec.and_zero
    · exact BitVec.and_zero
  · exact BitVec.and_allOnes

/-- What the mask 0xF000 leaves of a word. -/
theorem and_F000 (w : Word) : w &&& 0xF000 = packNnn (fieldsOf w).op0 0 := by
  conv_lhs => rw [← packNnn_fields (w := w) rfl]
  exact and_packNnn _ _

/-- What the mask 0xF0FF leaves of a word. -/
theorem and_F0FF (w : Word) : w &&& 0xF0FF = packXnn (fieldsOf w).op0 0 (fieldsOf w).nn := by
  conv_lhs => rw [← packXnn_fields (w := w) rfl rfl]
  exact and_packXnn _ _ _

/-- What the mask 0xF00F leaves of a word. -/
theorem and_F00F (w : Word) : w &&& 0xF00F = packXyn (fieldsOf w).op0 0 0 (fieldsOf w).n := by
  conv_lhs => rw [← packXyn_fields (w := w) rfl rfl]
  exact and_packXyn _ _ _ _

theorem word_beq (v w : Word) : (v == w) = decide (v.toNat = w.toNat) := by
  rw [beq_eq_decide, decide_eq_decide, BitVec.toNat_inj]

/-! A row's match as a test on numbers, by its mask. -/

theorem isMatch_F000 (m : String) (v w : Word) :
    OpcodeRow.isMatch ⟨m, v, 0xF000⟩ w = decide (w.toNat / 4096 * 4096 = v.toNat) := by
  rw [OpcodeRow.isMatch, word_beq]
  simp only [and_F000, toNat_packNnn, toNat_op0]
  simp

theorem isMatch_F0FF (m : String) (v w : Word) :
    OpcodeRow.isMatch ⟨m, v, 0xF0FF⟩ w = decide (w.toNat / 4096 * 4096 + w.toNat % 256 = v.toNat) := by
  rw [OpcodeRow.isMatch, word_beq]
  simp only [and_F0FF, toNat_packXnn, toNat_op0, toNat_nn]
  simp

theorem isMatch_F00F (m : String) (v w : Word) :
    OpcodeRow.isMatch ⟨m, v, 0xF00F⟩ w = decide (w.toNat / 4096 * 4096 + w.toNat % 16 = v.toNat) := by
  rw [OpcodeRow.isMatch, word_beq]
  simp only [and_F00F, toNat_packXyn, toNat_op0, toNat_n]
  simp

theorem isMatch_FFFF (m : String) (v w : Word) :
    OpcodeRow.isMatch ⟨m, v, 0xFFFF⟩ w = decide (w.toNat = v.toNat) := by
  rw [OpcodeRow.isMatch, word_beq]
  simp only [show w &&& 0xFFFF = w from BitVec.and_allOnes]

end Sys2Proof
end

