-- ==== Sys2Proof/Laws/Framebuffer.lean ====
section
/-! SUPPORT. The framebuffer: read after write of a pixel, and the compositor's loops against the closed form of a sprite
(40_display.md R101): row by row, then the whole sprite. -/

namespace Sys2Proof.Machine

theorem pixelIndex_inj {x y x' y' : Nat} (hx : x < 64) (hx' : x' < 64) :
    pixelIndex x y = pixelIndex x' y' ↔ x = x' ∧ y = y' := by
  simp only [pixelIndex, Config.fbWidth]; omega

/-- Read after write of a pixel. -/
theorem pixel_setPixel (fb : Framebuffer) {x y x' y' : Nat} (b : Bool) (hx : x < 64) (hx' : x' < 64)
    (hy' : y' < 32) :
    Framebuffer.pixel (Framebuffer.setPixel fb x y b) x' y' =
      if x' = x ∧ y' = y then b else Framebuffer.pixel fb x' y' := by
  have hk : pixelIndex x' y' < 2048 := by simp only [pixelIndex, Config.fbWidth]; omega
  have hinj := pixelIndex_inj (y := y') (y' := y) hx' hx
  unfold Framebuffer.setPixel Framebuffer.pixel
  by_cases h : pixelIndex x y = pixelIndex x' y'
  · rw [if_pos (hinj.1 h.symm), h]
    cases b <;> simp [hk]
  · rw [if_neg (fun hc => h (hinj.2 hc).symm)]
    cases b <;> simp [BitVec.getLsbD_twoPow, h]
    intro hp
    exact BitVec.lt_of_getLsbD hp

/-- The pixels are the whole framebuffer. -/
theorem pixel_ext {a b : Framebuffer}
    (h : ∀ X Y, X < 64 → Y < 32 → Framebuffer.pixel a X Y = Framebuffer.pixel b X Y) : a = b := by
  refine BitVec.eq_of_getLsbD_eq fun k hk => ?_
  have := h (k % 64) (k / 64) (by omega) (by omega)
  simpa [Framebuffer.pixel, pixelIndex, Nat.div_add_mod'] using this

/-- The column of the sprite that falls on column X: its distance from `cx` modulo 64. -/
def spriteColumn (cx X : Nat) : Nat := (X + (64 - cx % 64)) % 64

/-- The row of the sprite that falls on row Y: its distance from `cy` modulo 32. -/
def spriteRow (cy Y : Nat) : Nat := (Y + (32 - cy % 32)) % 32

theorem spriteColumn_eq {cx X k : Nat} (hX : X < 64) (hk : k < 64) : X = (cx + k) % 64 ↔ spriteColumn cx X = k := by
  unfold spriteColumn; omega

theorem spriteRow_eq {cy Y k : Nat} (hY : Y < 32) (hk : k < 32) : Y = (cy + k) % 32 ↔ spriteRow cy Y = k := by
  unfold spriteRow; omega

theorem plot_pixel (c : Canvas) {px py X Y : Nat} (b : Bool) (hpx : px < 64) (hX : X < 64) (hY : Y < 32) :
    Framebuffer.pixel (c.plot px py b).fb X Y =
      (Framebuffer.pixel c.fb X Y ^^ (decide (X = px) && decide (Y = py) && b)) := by
  simp only [Canvas.plot, pixel_setPixel c.fb _ hpx hX hY]
  by_cases h : X = px ∧ Y = py
  · rw [if_pos h, h.1, h.2]; simp
  · rw [if_neg h]
    by_cases h1 : X = px <;> by_cases h2 : Y = py <;> simp_all

theorem plot_collide (c : Canvas) (px py : Nat) (b : Bool) :
    (c.plot px py b).collide = (c.collide || (Framebuffer.pixel c.fb px py && b)) := rfl

/-- The first `m` bits of a row: the pixels. -/
theorem bits_pixel (cx py : Nat) (b : Byte) (c : Canvas) {m X Y : Nat} (hm : m ≤ 8) (hX : X < 64)
    (hY : Y < 32) :
    Framebuffer.pixel ((List.range m).foldl (Canvas.plotBit cx py b) c).fb X Y =
      (Framebuffer.pixel c.fb X Y ^^
        (decide (Y = py) && decide (spriteColumn cx X < m) && b.getLsbD (7 - spriteColumn cx X))) := by
  induction m with
  | zero => simp
  | succ m ih =>
    rw [List.range_succ, List.foldl_append, List.foldl_cons, List.foldl_nil, Canvas.plotBit,
      plot_pixel _ _ (Nat.mod_lt _ (by simp)) hX hY, ih (by omega)]
    have hcol := spriteColumn_eq (cx := cx) (k := m) hX (by omega)
    by_cases h : spriteColumn cx X = m
    · have hXm : X = (cx + m) % Config.fbWidth := hcol.2 h
      simp only [h]; rw [decide_eq_true hXm]; simp
    · have hXm : ¬X = (cx + m) % Config.fbWidth := fun e => h (hcol.1 e)
      rw [decide_eq_false hXm]
      have : decide (spriteColumn cx X < m + 1) = decide (spriteColumn cx X < m) := by
        rw [decide_eq_decide]; omega
      rw [this]; simp

/-- The first `m` bits of a row: the collision. -/
theorem bits_collide (cx py : Nat) (b : Byte) (c : Canvas) {m : Nat} (hm : m ≤ 8) (hpy : py < 32) :
    ((List.range m).foldl (Canvas.plotBit cx py b) c).collide = true ↔
      c.collide = true ∨ ∃ X, X < 64 ∧ Framebuffer.pixel c.fb X py = true ∧ spriteColumn cx X < m ∧
        b.getLsbD (7 - spriteColumn cx X) = true := by
  induction m with
  | zero => simp
  | succ m ih =>
    rw [List.range_succ, List.foldl_append, List.foldl_cons, List.foldl_nil, Canvas.plotBit, plot_collide,
      Bool.or_eq_true, ih (by omega), Bool.and_eq_true]
    have hX0 : (cx + m) % Config.fbWidth < 64 := Nat.mod_lt _ (by simp)
    have hcol0 : spriteColumn cx ((cx + m) % Config.fbWidth) = m := (spriteColumn_eq hX0 (by omega)).1 rfl
    rw [bits_pixel cx py b c (by omega) hX0 hpy, hcol0]
    constructor
    · rintro ((h | ⟨X, hX, hp, hlt, hb⟩) | ⟨hp, hb⟩)
      · exact .inl h
      · exact .inr ⟨X, hX, hp, by omega, hb⟩
      · refine .inr ⟨_, hX0, by simpa using hp, by omega, by rwa [hcol0]⟩
    · rintro (h | ⟨X, hX, hp, hlt, hb⟩)
      · exact .inl (.inl h)
      · by_cases h : spriteColumn cx X = m
        · have : X = (cx + m) % Config.fbWidth := (spriteColumn_eq hX (by omega)).2 h
          rw [h] at hb
          subst this
          exact .inr ⟨by simpa using hp, hb⟩
        · exact .inl (.inr ⟨X, hX, hp, by omega, hb⟩)

/-- The first `n` rows: the pixels. -/
theorem rows_pixel (cx cy : Nat) (sprite : Nat → Byte) (c : Canvas) {n X Y : Nat} (hn : n ≤ 32) (hX : X < 64)
    (hY : Y < 32) :
    Framebuffer.pixel ((List.range n).foldl (Canvas.drawRow cx cy sprite) c).fb X Y =
      (Framebuffer.pixel c.fb X Y ^^ spriteBitAt cx cy n sprite X Y) := by
  show _ = (Framebuffer.pixel c.fb X Y ^^
    (decide (spriteColumn cx X < 8) && decide (spriteRow cy Y < n) &&
      (sprite (spriteRow cy Y)).getLsbD (7 - spriteColumn cx X)))
  induction n with
  | zero => simp
  | succ n ih =>
    rw [List.range_succ, List.foldl_append, List.foldl_cons, List.foldl_nil, Canvas.drawRow,
      bits_pixel _ _ _ _ (le_refl 8) hX hY, ih (by omega)]
    have hrow := spriteRow_eq (cy := cy) (k := n) hY (by omega)
    by_cases h : spriteRow cy Y = n
    · have hYn : Y = (cy + n) % Config.fbHeight := hrow.2 h
      simp only [h]; rw [decide_eq_true hYn]; simp
    · have hYn : ¬Y = (cy + n) % Config.fbHeight := fun e => h (hrow.1 e)
      rw [decide_eq_false hYn]
      have : decide (spriteRow cy Y < n + 1) = decide (spriteRow cy Y < n) := by rw [decide_eq_decide]; omega
      rw [this]; simp

/-- The first `n` rows: the collision. A sprite never overlaps itself, so each pixel counts as it was at the start. -/
theorem rows_collide (cx cy : Nat) (sprite : Nat → Byte) (c : Canvas) {n : Nat} (hn : n ≤ 32) :
    ((List.range n).foldl (Canvas.drawRow cx cy sprite) c).collide = true ↔
      c.collide = true ∨ ∃ X Y, X < 64 ∧ Y < 32 ∧ Framebuffer.pixel c.fb X Y = true ∧
        spriteBitAt cx cy n sprite X Y = true := by
  have unfoldBit : ∀ m X Y, spriteBitAt cx cy m sprite X Y = true ↔
      (spriteColumn cx X < 8 ∧ spriteRow cy Y < m) ∧
        (sprite (spriteRow cy Y)).getLsbD (7 - spriteColumn cx X) = true := by
    intro m X Y
    show (decide (spriteColumn cx X < 8) && decide (spriteRow cy Y < m) &&
      (sprite (spriteRow cy Y)).getLsbD (7 - spriteColumn cx X)) = true ↔ _
    simp
  simp only [unfoldBit]
  induction n with
  | zero => simp
  | succ n ih =>
    have ih' := ih (by omega)
    rw [List.range_succ, List.foldl_append, List.foldl_cons, List.foldl_nil, Canvas.drawRow,
      bits_collide _ _ _ _ (le_refl 8) (Nat.mod_lt _ (by simp))]
    refine (or_congr ih' Iff.rfl).trans ?_
    have hY0 : (cy + n) % Config.fbHeight < 32 := Nat.mod_lt _ (by simp)
    have hrow0 : spriteRow cy ((cy + n) % Config.fbHeight) = n := (spriteRow_eq hY0 (by omega)).1 rfl
    have before : ∀ X, X < 64 →
        Framebuffer.pixel ((List.range n).foldl (Canvas.drawRow cx cy sprite) c).fb X ((cy + n) % Config.fbHeight) =
          Framebuffer.pixel c.fb X ((cy + n) % Config.fbHeight) := by
      intro X hX
      rw [rows_pixel cx cy sprite c (by omega) hX hY0]
      have : spriteBitAt cx cy n sprite X ((cy + n) % Config.fbHeight) = false := by
        rw [Bool.eq_false_iff]; intro hb
        have := (unfoldBit _ _ _).1 hb
        omega
      rw [this]; simp
    constructor
    · rintro ((h | ⟨X, Y, hX, hY, hp, ⟨hc, hr⟩, hb⟩) | ⟨X, hX, hp, hc, hb⟩)
      · exact .inl h
      · exact .inr ⟨X, Y, hX, hY, hp, ⟨hc, by omega⟩, hb⟩
      · refine .inr ⟨X, _, hX, hY0, by rwa [before X hX] at hp, ⟨hc, by omega⟩, by rwa [hrow0]⟩
    · rintro (h | ⟨X, Y, hX, hY, hp, ⟨hc, hr⟩, hb⟩)
      · exact .inl (.inl h)
      · by_cases h : spriteRow cy Y = n
        · have hYn : Y = (cy + n) % Config.fbHeight := (spriteRow_eq hY (by omega)).2 h
          rw [h] at hb
          subst hYn
          exact .inr ⟨X, hX, by rwa [before X hX], hc, hb⟩
        · exact .inl (.inr ⟨X, Y, hX, hY, hp, ⟨hc, by omega⟩, hb⟩)

end Sys2Proof.Machine
end

