-- ==== Sys2Proof/Laws/Memory.lean ====
section
/-! SUPPORT. Memory: read after write, every write keeps the canonical form, a run of bytes as one store. The read laws
hold for EVERY list of cells, canonical or not. -/

namespace Sys2Proof.Machine

@[simp] theorem read_nil (a : Nat) : Memory.read [] a = background a := rfl

theorem read_cons (c : Host.Cell) (m : Memory) (a : Nat) :
    Memory.read (c :: m) a = if c.1 = a then c.2 else Memory.read m a := rfl

theorem read_erase (m : Memory) (a b : Nat) :
    Memory.read (Memory.erase m a) b = if b = a then background a else Memory.read m b := by
  induction m with
  | nil => simp only [Memory.erase, read_nil]; split <;> simp_all
  | cons c m ih =>
    simp only [Memory.erase]
    split
    · rw [ih, read_cons]; split
      · rfl
      · rw [if_neg]; omega
    · simp only [read_cons, ih]
      by_cases h : c.1 = b
      · rw [if_pos h, if_pos h, if_neg]; omega
      · rw [if_neg h, if_neg h]

/-- No cell of `m` is at `a`. -/
theorem erase_ne (m : Memory) (a : Nat) : ∀ c ∈ Memory.erase m a, c.1 ≠ a := by
  induction m with
  | nil => simp [Memory.erase]
  | cons c m ih =>
    simp only [Memory.erase]
    split
    · exact ih
    · rename_i hc
      intro d hd
      rcases List.mem_cons.1 hd with rfl | hd
      · exact hc
      · exact ih d hd

theorem read_insert (m : Memory) (a b : Nat) (v : Byte) (h : ∀ c ∈ m, c.1 ≠ a) :
    Memory.read (Memory.insert m a v) b = if b = a then v else Memory.read m b := by
  induction m with
  | nil => simp only [Memory.insert, read_cons, read_nil, eq_comm]
  | cons c m ih =>
    simp only [Memory.insert]
    split
    · simp only [read_cons, eq_comm]
    · have hc := h c (by simp)
      simp only [read_cons, ih (fun d hd => h d (by simp [hd]))]
      by_cases hb : c.1 = b
      · rw [if_pos hb, if_pos hb, if_neg]; omega
      · rw [if_neg hb, if_neg hb]

/-- Read after write: the value written at its address, the value before everywhere else (R72). -/
theorem read_write (m : Memory) (a b : Nat) (v : Byte) :
    Memory.read (Memory.write m a v) b = if b = a then v else Memory.read m b := by
  unfold Memory.write
  split
  · rename_i h; rw [read_erase, h]
  · rw [read_insert _ _ _ _ (erase_ne m a), read_erase]
    by_cases hb : b = a <;> simp [hb]

theorem erase_mem {m : Memory} {a : Nat} {c : Host.Cell} (h : c ∈ Memory.erase m a) : c ∈ m := by
  induction m with
  | nil => simp [Memory.erase] at h
  | cons d m ih =>
    simp only [Memory.erase] at h
    split at h
    · exact List.mem_cons_of_mem _ (ih h)
    · rcases List.mem_cons.1 h with h | h
      · simp [h]
      · exact List.mem_cons_of_mem _ (ih h)

theorem insert_mem {m : Memory} {a : Nat} {v : Byte} {c : Host.Cell} (h : c ∈ Memory.insert m a v) :
    c = (a, v) ∨ c ∈ m := by
  induction m with
  | nil => simpa [Memory.insert] using h
  | cons d m ih =>
    simp only [Memory.insert] at h
    split at h
    · simpa using h
    · rcases List.mem_cons.1 h with h | h
      · simp [h]
      · rcases ih h with h | h <;> simp [h]

theorem erase_sorted {m : Memory} (a : Nat) (h : m.Pairwise (fun c d => c.1 < d.1)) :
    (Memory.erase m a).Pairwise (fun c d => c.1 < d.1) := by
  induction m with
  | nil => simp [Memory.erase]
  | cons c m ih =>
    rw [List.pairwise_cons] at h
    simp only [Memory.erase]
    split
    · exact ih h.2
    · exact List.pairwise_cons.2 ⟨fun d hd => h.1 d (erase_mem hd), ih h.2⟩

theorem insert_sorted {m : Memory} (a : Nat) (v : Byte) (h : m.Pairwise (fun c d => c.1 < d.1))
    (hne : ∀ c ∈ m, c.1 ≠ a) : (Memory.insert m a v).Pairwise (fun c d => c.1 < d.1) := by
  induction m with
  | nil => simp [Memory.insert]
  | cons c m ih =>
    have hs := h
    rw [List.pairwise_cons] at h
    simp only [Memory.insert]
    split
    · rename_i hac
      refine List.pairwise_cons.2 ⟨fun d hd => ?_, hs⟩
      rcases List.mem_cons.1 hd with rfl | hd
      · exact hac
      · exact Nat.lt_trans hac (h.1 d hd)
    · rename_i hac
      have hc := hne c (by simp)
      refine List.pairwise_cons.2 ⟨fun d hd => ?_, ih h.2 (fun d hd => hne d (by simp [hd]))⟩
      rcases insert_mem hd with rfl | hd
      · simp only; omega
      · exact h.1 d hd

/-- A write inside the address space keeps the canonical form. -/
theorem write_wf {m : Memory} {a : Nat} (v : Byte) (h : Memory.wf m) (ha : a < 0x1000) :
    Memory.wf (Memory.write m a v) := by
  unfold Memory.write
  split
  · exact ⟨erase_sorted a h.1, fun c hc => h.2 c (erase_mem hc)⟩
  · rename_i hv
    refine ⟨insert_sorted a v (erase_sorted a h.1) (erase_ne m a), fun c hc => ?_⟩
    rcases insert_mem hc with rfl | hc
    · exact ⟨ha, hv⟩
    · exact h.2 c (erase_mem hc)

/-- A store of several bytes inside the address space keeps the canonical form. -/
theorem writeList_wf {m : Memory} {a : Nat} {bs : List Byte} (h : Memory.wf m) (ha : a + bs.length ≤ 0x1000) :
    Memory.wf (Memory.writeList m a bs) := by
  induction bs generalizing m a with
  | nil => exact h
  | cons b bs ih =>
    rw [List.length_cons] at ha
    exact ih (write_wf b h (by omega)) (by omega)

/-- A store of several bytes: byte `k` of the list at `a + k`, every other address as before. -/
theorem read_writeList (m : Memory) (a b : Nat) (bs : List Byte) :
    Memory.read (Memory.writeList m a bs) b =
      if a ≤ b ∧ b < a + bs.length then bs.getD (b - a) 0 else Memory.read m b := by
  induction bs generalizing m a with
  | nil => simp only [Memory.writeList, List.length_nil]; rw [if_neg]; omega
  | cons v bs ih =>
    simp only [Memory.writeList, ih, read_write, List.length_cons]
    by_cases hb : b = a
    · subst hb
      rw [if_neg (by omega), if_pos rfl, if_pos (by omega)]; simp
    · by_cases hr : a + 1 ≤ b ∧ b < a + 1 + bs.length
      · rw [if_pos hr, if_pos (by omega)]
        obtain ⟨k, rfl⟩ : ∃ k, b = a + 1 + k := ⟨b - (a + 1), by omega⟩
        rw [show a + 1 + k - (a + 1) = k by omega, show a + 1 + k - a = k + 1 by omega]; simp
      · rw [if_neg hr, if_neg hb, if_neg]; omega

/-- The font's addresses read as the default font where nothing is listed. -/
theorem background_outside_font {a : Nat} (h : a < 0x050 ∨ 0x0A0 ≤ a) : background a = 0 := by
  unfold background; rw [if_neg]; simp; omega

/-- Equal reads make equal canonical memories: the form is canonical. -/
theorem wf_ext {m n : Memory} (hm : Memory.wf m) (hn : Memory.wf n)
    (h : ∀ a, Memory.read m a = Memory.read n a) : m = n := by
  have key : ∀ {m : Memory} {a : Nat}, (∀ c ∈ m, a < c.1) → Memory.read m a = background a := by
    intro m a hlt
    induction m with
    | nil => rfl
    | cons c m ih =>
      have := hlt c (by simp)
      rw [read_cons, if_neg (by omega)]
      exact ih (fun d hd => hlt d (by simp [hd]))
  induction m generalizing n with
  | nil =>
    cases n with
    | nil => rfl
    | cons d n =>
      exfalso
      have hd := (hn.2 d (by simp)).2
      have := h d.1
      rw [read_nil, read_cons, if_pos rfl] at this
      exact hd this.symm
  | cons c m ih =>
    have hc := (hm.2 c (by simp)).2
    have hms := List.pairwise_cons.1 hm.1
    cases n with
    | nil =>
      exfalso
      have := h c.1
      rw [read_nil, read_cons, if_pos rfl] at this
      exact hc this
    | cons d n =>
      have hd := (hn.2 d (by simp)).2
      have hns := List.pairwise_cons.1 hn.1
      have hcd : c.1 = d.1 := by
        rcases Nat.lt_trichotomy c.1 d.1 with hlt | heq | hgt
        · exfalso
          have h1 := h c.1
          rw [read_cons, if_pos rfl, key] at h1
          · exact hc h1
          · intro e he
            rcases List.mem_cons.1 he with rfl | he
            · exact hlt
            · exact Nat.lt_trans hlt (hns.1 e he)
        · exact heq
        · exfalso
          have h1 := h d.1
          rw [read_cons (c := d), if_pos rfl, key] at h1
          · exact hd h1.symm
          · intro e he
            rcases List.mem_cons.1 he with rfl | he
            · exact hgt
            · exact Nat.lt_trans hgt (hms.1 e he)
      have hval : c.2 = d.2 := by
        have h1 := h c.1
        rwa [read_cons, if_pos rfl, read_cons, if_pos hcd.symm] at h1
      have hcells : c = d := Prod.ext hcd hval
      subst hcells
      congr 1
      refine ih ⟨hms.2, fun e he => hm.2 e (by simp [he])⟩ ⟨hns.2, fun e he => hn.2 e (by simp [he])⟩ fun a => ?_
      by_cases hca : c.1 = a
      · subst hca
        rw [key hms.1, key hns.1]
      · have h1 := h a
        rwa [read_cons, if_neg hca, read_cons, if_neg hca] at h1

end Sys2Proof.Machine
end

