-- ==== Sys2Proof/Laws/State.lean ====
section
/-! SUPPORT. One lemma per field per named update of State, each by rfl, so that no proof unfolds an update; then what a
register reads as after each of them. -/

namespace Sys2Proof.Machine

variable (s : State)

@[simp] theorem v_setReg (r : Reg) (b : Byte) : (s.setReg r b).v = s.v.set r b := rfl
@[simp] theorem i_setReg (r : Reg) (b : Byte) : (s.setReg r b).i = s.i := rfl
@[simp] theorem pc_setReg (r : Reg) (b : Byte) : (s.setReg r b).pc = s.pc := rfl
@[simp] theorem sp_setReg (r : Reg) (b : Byte) : (s.setReg r b).sp = s.sp := rfl
@[simp] theorem stack_setReg (r : Reg) (b : Byte) : (s.setReg r b).stack = s.stack := rfl
@[simp] theorem dt_setReg (r : Reg) (b : Byte) : (s.setReg r b).dt = s.dt := rfl
@[simp] theorem st_setReg (r : Reg) (b : Byte) : (s.setReg r b).st = s.st := rfl
@[simp] theorem mem_setReg (r : Reg) (b : Byte) : (s.setReg r b).mem = s.mem := rfl
@[simp] theorem fb_setReg (r : Reg) (b : Byte) : (s.setReg r b).fb = s.fb := rfl
@[simp] theorem halted_setReg (r : Reg) (b : Byte) : (s.setReg r b).halted = s.halted := rfl
@[simp] theorem fault_setReg (r : Reg) (b : Byte) : (s.setReg r b).fault = s.fault := rfl
@[simp] theorem fontWritePolicy_setReg (r : Reg) (b : Byte) : (s.setReg r b).fontWritePolicy = s.fontWritePolicy := rfl
@[simp] theorem inputs_setReg (r : Reg) (b : Byte) : (s.setReg r b).inputs = s.inputs := rfl
@[simp] theorem samples_setReg (r : Reg) (b : Byte) : (s.setReg r b).samples = s.samples := rfl
@[simp] theorem randDraws_setReg (r : Reg) (b : Byte) : (s.setReg r b).randDraws = s.randDraws := rfl
@[simp] theorem diag_setReg (r : Reg) (b : Byte) : (s.setReg r b).diag = s.diag := rfl

@[simp] theorem v_setFlag (c : Bool) : (s.setFlag c).v = s.v.set vf (flagByte c) := rfl
@[simp] theorem i_setFlag (c : Bool) : (s.setFlag c).i = s.i := rfl
@[simp] theorem pc_setFlag (c : Bool) : (s.setFlag c).pc = s.pc := rfl
@[simp] theorem sp_setFlag (c : Bool) : (s.setFlag c).sp = s.sp := rfl
@[simp] theorem stack_setFlag (c : Bool) : (s.setFlag c).stack = s.stack := rfl
@[simp] theorem dt_setFlag (c : Bool) : (s.setFlag c).dt = s.dt := rfl
@[simp] theorem st_setFlag (c : Bool) : (s.setFlag c).st = s.st := rfl
@[simp] theorem mem_setFlag (c : Bool) : (s.setFlag c).mem = s.mem := rfl
@[simp] theorem fb_setFlag (c : Bool) : (s.setFlag c).fb = s.fb := rfl
@[simp] theorem halted_setFlag (c : Bool) : (s.setFlag c).halted = s.halted := rfl
@[simp] theorem fault_setFlag (c : Bool) : (s.setFlag c).fault = s.fault := rfl
@[simp] theorem fontWritePolicy_setFlag (c : Bool) : (s.setFlag c).fontWritePolicy = s.fontWritePolicy := rfl
@[simp] theorem inputs_setFlag (c : Bool) : (s.setFlag c).inputs = s.inputs := rfl
@[simp] theorem samples_setFlag (c : Bool) : (s.setFlag c).samples = s.samples := rfl
@[simp] theorem randDraws_setFlag (c : Bool) : (s.setFlag c).randDraws = s.randDraws := rfl
@[simp] theorem diag_setFlag (c : Bool) : (s.setFlag c).diag = s.diag := rfl

@[simp] theorem v_setResultAndFlag (x : Reg) (b : Byte) (c : Bool) : (s.setResultAndFlag x b c).v = (s.v.set x b).set vf (flagByte c) := rfl
@[simp] theorem i_setResultAndFlag (x : Reg) (b : Byte) (c : Bool) : (s.setResultAndFlag x b c).i = s.i := rfl
@[simp] theorem pc_setResultAndFlag (x : Reg) (b : Byte) (c : Bool) : (s.setResultAndFlag x b c).pc = s.pc := rfl
@[simp] theorem sp_setResultAndFlag (x : Reg) (b : Byte) (c : Bool) : (s.setResultAndFlag x b c).sp = s.sp := rfl
@[simp] theorem stack_setResultAndFlag (x : Reg) (b : Byte) (c : Bool) : (s.setResultAndFlag x b c).stack = s.stack := rfl
@[simp] theorem dt_setResultAndFlag (x : Reg) (b : Byte) (c : Bool) : (s.setResultAndFlag x b c).dt = s.dt := rfl
@[simp] theorem st_setResultAndFlag (x : Reg) (b : Byte) (c : Bool) : (s.setResultAndFlag x b c).st = s.st := rfl
@[simp] theorem mem_setResultAndFlag (x : Reg) (b : Byte) (c : Bool) : (s.setResultAndFlag x b c).mem = s.mem := rfl
@[simp] theorem fb_setResultAndFlag (x : Reg) (b : Byte) (c : Bool) : (s.setResultAndFlag x b c).fb = s.fb := rfl
@[simp] theorem halted_setResultAndFlag (x : Reg) (b : Byte) (c : Bool) : (s.setResultAndFlag x b c).halted = s.halted := rfl
@[simp] theorem fault_setResultAndFlag (x : Reg) (b : Byte) (c : Bool) : (s.setResultAndFlag x b c).fault = s.fault := rfl
@[simp] theorem fontWritePolicy_setResultAndFlag (x : Reg) (b : Byte) (c : Bool) : (s.setResultAndFlag x b c).fontWritePolicy = s.fontWritePolicy := rfl
@[simp] theorem inputs_setResultAndFlag (x : Reg) (b : Byte) (c : Bool) : (s.setResultAndFlag x b c).inputs = s.inputs := rfl
@[simp] theorem samples_setResultAndFlag (x : Reg) (b : Byte) (c : Bool) : (s.setResultAndFlag x b c).samples = s.samples := rfl
@[simp] theorem randDraws_setResultAndFlag (x : Reg) (b : Byte) (c : Bool) : (s.setResultAndFlag x b c).randDraws = s.randDraws := rfl
@[simp] theorem diag_setResultAndFlag (x : Reg) (b : Byte) (c : Bool) : (s.setResultAndFlag x b c).diag = s.diag := rfl

@[simp] theorem v_setRegsThrough (x : Reg) (f : Nat → Byte) : (s.setRegsThrough x f).v = Vector.ofFn fun k => if k.val ≤ x.val then f k.val else s.v[k] := rfl
@[simp] theorem i_setRegsThrough (x : Reg) (f : Nat → Byte) : (s.setRegsThrough x f).i = s.i := rfl
@[simp] theorem pc_setRegsThrough (x : Reg) (f : Nat → Byte) : (s.setRegsThrough x f).pc = s.pc := rfl
@[simp] theorem sp_setRegsThrough (x : Reg) (f : Nat → Byte) : (s.setRegsThrough x f).sp = s.sp := rfl
@[simp] theorem stack_setRegsThrough (x : Reg) (f : Nat → Byte) : (s.setRegsThrough x f).stack = s.stack := rfl
@[simp] theorem dt_setRegsThrough (x : Reg) (f : Nat → Byte) : (s.setRegsThrough x f).dt = s.dt := rfl
@[simp] theorem st_setRegsThrough (x : Reg) (f : Nat → Byte) : (s.setRegsThrough x f).st = s.st := rfl
@[simp] theorem mem_setRegsThrough (x : Reg) (f : Nat → Byte) : (s.setRegsThrough x f).mem = s.mem := rfl
@[simp] theorem fb_setRegsThrough (x : Reg) (f : Nat → Byte) : (s.setRegsThrough x f).fb = s.fb := rfl
@[simp] theorem halted_setRegsThrough (x : Reg) (f : Nat → Byte) : (s.setRegsThrough x f).halted = s.halted := rfl
@[simp] theorem fault_setRegsThrough (x : Reg) (f : Nat → Byte) : (s.setRegsThrough x f).fault = s.fault := rfl
@[simp] theorem fontWritePolicy_setRegsThrough (x : Reg) (f : Nat → Byte) : (s.setRegsThrough x f).fontWritePolicy = s.fontWritePolicy := rfl
@[simp] theorem inputs_setRegsThrough (x : Reg) (f : Nat → Byte) : (s.setRegsThrough x f).inputs = s.inputs := rfl
@[simp] theorem samples_setRegsThrough (x : Reg) (f : Nat → Byte) : (s.setRegsThrough x f).samples = s.samples := rfl
@[simp] theorem randDraws_setRegsThrough (x : Reg) (f : Nat → Byte) : (s.setRegsThrough x f).randDraws = s.randDraws := rfl
@[simp] theorem diag_setRegsThrough (x : Reg) (f : Nat → Byte) : (s.setRegsThrough x f).diag = s.diag := rfl

@[simp] theorem v_storeAtI (bs : List Byte) : (s.storeAtI bs).v = s.v := rfl
@[simp] theorem i_storeAtI (bs : List Byte) : (s.storeAtI bs).i = s.i := rfl
@[simp] theorem pc_storeAtI (bs : List Byte) : (s.storeAtI bs).pc = s.pc := rfl
@[simp] theorem sp_storeAtI (bs : List Byte) : (s.storeAtI bs).sp = s.sp := rfl
@[simp] theorem stack_storeAtI (bs : List Byte) : (s.storeAtI bs).stack = s.stack := rfl
@[simp] theorem dt_storeAtI (bs : List Byte) : (s.storeAtI bs).dt = s.dt := rfl
@[simp] theorem st_storeAtI (bs : List Byte) : (s.storeAtI bs).st = s.st := rfl
@[simp] theorem mem_storeAtI (bs : List Byte) : (s.storeAtI bs).mem = Memory.writeList s.mem (s.effective 0) bs := rfl
@[simp] theorem fb_storeAtI (bs : List Byte) : (s.storeAtI bs).fb = s.fb := rfl
@[simp] theorem halted_storeAtI (bs : List Byte) : (s.storeAtI bs).halted = s.halted := rfl
@[simp] theorem fault_storeAtI (bs : List Byte) : (s.storeAtI bs).fault = s.fault := rfl
@[simp] theorem fontWritePolicy_storeAtI (bs : List Byte) : (s.storeAtI bs).fontWritePolicy = s.fontWritePolicy := rfl
@[simp] theorem inputs_storeAtI (bs : List Byte) : (s.storeAtI bs).inputs = s.inputs := rfl
@[simp] theorem samples_storeAtI (bs : List Byte) : (s.storeAtI bs).samples = s.samples := rfl
@[simp] theorem randDraws_storeAtI (bs : List Byte) : (s.storeAtI bs).randDraws = s.randDraws := rfl
@[simp] theorem diag_storeAtI (bs : List Byte) : (s.storeAtI bs).diag = s.diag := rfl

@[simp] theorem v_raiseFatal (code : FaultCode) (w : Option Word) (ea : Option Nat) : (s.raiseFatal code w ea).v = s.v := rfl
@[simp] theorem i_raiseFatal (code : FaultCode) (w : Option Word) (ea : Option Nat) : (s.raiseFatal code w ea).i = s.i := rfl
@[simp] theorem pc_raiseFatal (code : FaultCode) (w : Option Word) (ea : Option Nat) : (s.raiseFatal code w ea).pc = s.pc := rfl
@[simp] theorem sp_raiseFatal (code : FaultCode) (w : Option Word) (ea : Option Nat) : (s.raiseFatal code w ea).sp = s.sp := rfl
@[simp] theorem stack_raiseFatal (code : FaultCode) (w : Option Word) (ea : Option Nat) : (s.raiseFatal code w ea).stack = s.stack := rfl
@[simp] theorem dt_raiseFatal (code : FaultCode) (w : Option Word) (ea : Option Nat) : (s.raiseFatal code w ea).dt = s.dt := rfl
@[simp] theorem st_raiseFatal (code : FaultCode) (w : Option Word) (ea : Option Nat) : (s.raiseFatal code w ea).st = s.st := rfl
@[simp] theorem mem_raiseFatal (code : FaultCode) (w : Option Word) (ea : Option Nat) : (s.raiseFatal code w ea).mem = s.mem := rfl
@[simp] theorem fb_raiseFatal (code : FaultCode) (w : Option Word) (ea : Option Nat) : (s.raiseFatal code w ea).fb = s.fb := rfl
@[simp] theorem halted_raiseFatal (code : FaultCode) (w : Option Word) (ea : Option Nat) : (s.raiseFatal code w ea).halted = true := rfl
@[simp] theorem fault_raiseFatal (code : FaultCode) (w : Option Word) (ea : Option Nat) : (s.raiseFatal code w ea).fault = some ⟨code, w, s.pc, ea⟩ := rfl
@[simp] theorem fontWritePolicy_raiseFatal (code : FaultCode) (w : Option Word) (ea : Option Nat) : (s.raiseFatal code w ea).fontWritePolicy = s.fontWritePolicy := rfl
@[simp] theorem inputs_raiseFatal (code : FaultCode) (w : Option Word) (ea : Option Nat) : (s.raiseFatal code w ea).inputs = s.inputs := rfl
@[simp] theorem samples_raiseFatal (code : FaultCode) (w : Option Word) (ea : Option Nat) : (s.raiseFatal code w ea).samples = s.samples := rfl
@[simp] theorem randDraws_raiseFatal (code : FaultCode) (w : Option Word) (ea : Option Nat) : (s.raiseFatal code w ea).randDraws = s.randDraws := rfl
@[simp] theorem diag_raiseFatal (code : FaultCode) (w : Option Word) (ea : Option Nat) : (s.raiseFatal code w ea).diag = s.diag := rfl

@[simp] theorem v_environment : (environment s).v = s.v := rfl
@[simp] theorem i_environment : (environment s).i = s.i := rfl
@[simp] theorem pc_environment : (environment s).pc = s.pc := rfl
@[simp] theorem sp_environment : (environment s).sp = s.sp := rfl
@[simp] theorem stack_environment : (environment s).stack = s.stack := rfl
@[simp] theorem dt_environment : (environment s).dt = countDown (Config.ticksBefore s.samples) s.dt := rfl
@[simp] theorem st_environment : (environment s).st = countDown (Config.ticksBefore s.samples) s.st := rfl
@[simp] theorem mem_environment : (environment s).mem = s.mem := rfl
@[simp] theorem fb_environment : (environment s).fb = s.fb := rfl
@[simp] theorem halted_environment : (environment s).halted = s.halted := rfl
@[simp] theorem fault_environment : (environment s).fault = s.fault := rfl
@[simp] theorem fontWritePolicy_environment : (environment s).fontWritePolicy = s.fontWritePolicy := rfl
@[simp] theorem inputs_environment : (environment s).inputs = sampledInputs s := rfl
@[simp] theorem samples_environment : (environment s).samples = s.samples + 1 := rfl
@[simp] theorem randDraws_environment : (environment s).randDraws = s.randDraws := rfl
@[simp] theorem diag_environment : (environment s).diag = s.diag := rfl

/-- Reading a register is reading the file. -/
theorem reg_eq_of_v_eq {s t : State} (h : t.v = s.v) (r : Reg) : t.reg r = s.reg r := by simp [State.reg, h]

@[simp] theorem reg_setReg (x : Reg) (b : Byte) (r : Reg) :
    (s.setReg x b).reg r = if r = x then b else s.reg r := by
  simp [State.setReg, State.reg, Vector.getElem_set, Fin.ext_iff, eq_comm]

@[simp] theorem reg_setFlag (c : Bool) (r : Reg) :
    (s.setFlag c).reg r = if r = vf then flagByte c else s.reg r := reg_setReg s vf _ r

/-- The flag is written last, so it is what VF keeps (R94). -/
@[simp] theorem reg_setResultAndFlag (x : Reg) (b : Byte) (c : Bool) (r : Reg) :
    (s.setResultAndFlag x b c).reg r = if r = vf then flagByte c else if r = x then b else s.reg r := by
  simp [State.setResultAndFlag]

@[simp] theorem reg_setRegsThrough (x : Reg) (f : Nat → Byte) (r : Reg) :
    (s.setRegsThrough x f).reg r = if r.val ≤ x.val then f r.val else s.reg r := by
  simp [State.setRegsThrough, State.reg]

@[simp] theorem reg_storeAtI (bs : List Byte) (r : Reg) : (s.storeAtI bs).reg r = s.reg r := rfl

@[simp] theorem reg_raiseFatal (code : FaultCode) (w : Option Word) (ea : Option Nat) (r : Reg) :
    (s.raiseFatal code w ea).reg r = s.reg r := rfl

@[simp] theorem reg_environment (r : Reg) : (environment s).reg r = s.reg r := rfl

theorem regsThrough_length (x : Reg) : (s.regsThrough x).length = x.val + 1 := by
  simp [State.regsThrough]

theorem regsThrough_getElem (x : Reg) (k : Nat) (h : k < (s.regsThrough x).length) :
    (s.regsThrough x)[k] = s.reg ⟨k, by have := regsThrough_length s x; omega⟩ := by
  simp [State.regsThrough, State.reg]

end Sys2Proof.Machine
end

