-- ==== Sys2Proof/Laws/Ops.lean ====
section
/-! SUPPORT. For each shared operation, once, everything it can do: the access checks, the stack, the key draw, the
timers, fetching. Later proofs cite these instead of unfolding the operations. -/

namespace Sys2Proof.Machine

/-! ## The checks (R62 to R64) -/

theorem firstFailing_none {check : Nat → Option FaultCode} {a n : Nat} :
    firstFailing check a n = none ↔ ∀ b, a ≤ b → b < a + n → check b = none := by
  induction n generalizing a with
  | zero => simp [firstFailing]; omega
  | succ n ih =>
    unfold firstFailing
    cases h : check a with
    | some code =>
      simp only [reduceCtorEq, false_iff]
      intro hall
      rw [hall a (by omega) (by omega)] at h
      cases h
    | none =>
      simp only [ih]
      constructor
      · intro hall b h1 h2
        by_cases hb : b = a
        · rw [hb, h]
        · exact hall b (by omega) (by omega)
      · exact fun hall b h1 h2 => hall b (by omega) (by omega)

/-- The reported address fails and every lower one passes (R64). -/
theorem firstFailing_some {check : Nat → Option FaultCode} {a n : Nat} {code : FaultCode} {ea : Nat} :
    firstFailing check a n = some (code, ea) ↔
      a ≤ ea ∧ ea < a + n ∧ check ea = some code ∧ ∀ b, a ≤ b → b < ea → check b = none := by
  induction n generalizing a with
  | zero => simp [firstFailing]; omega
  | succ n ih =>
    unfold firstFailing
    cases h : check a with
    | some c =>
      simp only [Option.some.injEq, Prod.mk.injEq]
      constructor
      · rintro ⟨rfl, rfl⟩; exact ⟨by omega, by omega, h, by omega⟩
      · rintro ⟨h1, h2, h3, h4⟩
        by_cases hb : a = ea
        · subst hb; rw [h] at h3; exact ⟨by simpa using h3, rfl⟩
        · have := h4 a (by omega) (by omega); rw [h] at this; cases this
    | none =>
      simp only [ih]
      constructor
      · rintro ⟨h1, h2, h3, h4⟩
        refine ⟨by omega, by omega, h3, fun b hb1 hb2 => ?_⟩
        by_cases hb : b = a
        · rw [hb, h]
        · exact h4 b (by omega) hb2
      · rintro ⟨h1, h2, h3, h4⟩
        have hne : a ≠ ea := by rintro rfl; rw [h] at h3; cases h3
        exact ⟨by omega, by omega, h3, fun b hb1 hb2 => h4 b (by omega) hb2⟩

theorem readCheck_none {a : Nat} : readCheck a = none ↔ a < 0x1000 := by simp [readCheck]

theorem inFont_iff {a : Nat} : inFont a = true ↔ 0x050 ≤ a ∧ a < 0x0A0 := by simp [inFont]

theorem writeCheck_eq (policy : Config.FontWritePolicy) (a : Nat) :
    writeCheck policy a =
      if 0x1000 ≤ a then some .memoryOutOfBounds
      else if 0x050 ≤ a ∧ a < 0x0A0 ∧ policy = .fault then some .fontRegionWrite
      else none := by
  simp only [writeCheck, inFont, Config.memSize, ge_iff_le, Bool.and_eq_true, decide_eq_true_eq, beq_iff_eq, and_assoc]

theorem writeCheck_none {policy : Config.FontWritePolicy} {a : Nat} :
    writeCheck policy a = none ↔ a < 0x1000 ∧ (policy = .fault → ¬(0x050 ≤ a ∧ a < 0x0A0)) := by
  rw [writeCheck_eq]
  split
  · simp; omega
  · split
    · rename_i h; simp [h.1, h.2.1, h.2.2]
    · rename_i h1 h2; exact ⟨fun _ => ⟨by omega, fun hp hf => h2 ⟨hf.1, hf.2, hp⟩⟩, fun _ => rfl⟩

/-- The failing read of `n` bytes from I: out of bounds at I itself or at 0x1000. -/
theorem failingRead_eq (s : State) (n : Nat) :
    s.failingRead n =
      if 0 < n ∧ s.i.toNat + n > 0x1000 then some (.memoryOutOfBounds, max s.i.toNat 0x1000) else none := by
  unfold State.failingRead State.effective
  split
  · rename_i h
    rw [firstFailing_some]
    refine ⟨by omega, by omega, if_pos (by simp), fun b h1 h2 => readCheck_none.2 (by omega)⟩
  · rename_i h
    rw [firstFailing_none]
    exact fun b h1 h2 => readCheck_none.2 (by omega)

/-- The failing write of at most 16 bytes from I: out of bounds, or the lowest byte in the font table. -/
theorem failingWrite_eq (s : State) (n : Nat) (hn : n ≤ 16) :
    s.failingWrite n =
      if 0 < n ∧ s.i.toNat + n > 0x1000 then some (.memoryOutOfBounds, max s.i.toNat 0x1000)
      else if s.fontWritePolicy = .fault ∧ 0 < n ∧ s.i.toNat < 0x0A0 ∧ s.i.toNat + n > 0x050 then
        some (.fontRegionWrite, max s.i.toNat 0x050)
      else none := by
  unfold State.failingWrite State.effective
  split
  · rename_i h
    rw [firstFailing_some]
    refine ⟨by omega, by omega, ?_, fun b h1 h2 => writeCheck_none.2 ⟨by omega, fun _ => by omega⟩⟩
    rw [writeCheck_eq, if_pos (by omega)]
  · split
    · rename_i h0 h
      rw [firstFailing_some]
      refine ⟨by omega, by omega, ?_, fun b h1 h2 => writeCheck_none.2 ⟨by omega, fun _ => by omega⟩⟩
      rw [writeCheck_eq, if_neg (by omega), if_pos ⟨by omega, by omega, h.1⟩]
    · rename_i h0 h
      rw [firstFailing_none]
      refine fun b h1 h2 => writeCheck_none.2 ⟨by omega, fun hp hf => h ⟨hp, by omega, by omega, by omega⟩⟩

/-- A read of bytes that all exist fails nowhere. -/
theorem failingRead_none {s : State} {n : Nat} : s.failingRead n = none ↔ n = 0 ∨ s.effective 0 + n ≤ 0x1000 := by
  rw [failingRead_eq, State.effective]
  split <;> simp <;> omega

/-- A write of bytes that all exist and may be written fails nowhere. -/
theorem failingWrite_none {s : State} {n : Nat} (hn : n ≤ 16) (hm : s.effective 0 + n ≤ 0x1000)
    (hf : s.fontWritePolicy = .write ∨ s.effective 0 + n ≤ 0x050 ∨ 0x0A0 ≤ s.effective 0) : s.failingWrite n = none := by
  simp only [State.effective, Nat.add_zero] at hm hf
  rw [failingWrite_eq s n hn, if_neg (by omega), if_neg]
  rintro ⟨hp, h⟩
  rw [hp] at hf
  simp only [reduceCtorEq, false_or] at hf
  omega

@[simp] theorem guarded_none (s : State) (i : Instr) (r : Result) : s.guarded i none r = r := rfl

@[simp] theorem guarded_some (s : State) (i : Instr) (code : FaultCode) (ea : Nat) (r : Result) :
    s.guarded i (some (code, ea)) r = .next (s.raiseFatal code (some (encode i)) (some ea)) := rfl

/-! ## Addresses in a word (R82) -/

@[simp] theorem toNat_immAddress (nnn : Imm12) : (immAddress nnn).toNat = nnn.toNat := by
  simp [immAddress]; omega

theorem immAddress_eq (nnn : Imm12) : immAddress nnn = BitVec.ofNat 16 nnn.toNat := by
  apply BitVec.eq_of_toNat_eq; rw [toNat_immAddress]; simp; omega

/-- The target of `JP V0` is the exact sum (R118). -/
theorem toNat_jpV0 (b : Byte) (nnn : Imm12) : (zext16 b + immAddress nnn).toNat = b.toNat + nnn.toNat := by
  rw [BitVec.toNat_add, toNat_immAddress]; simp; omega

/-! ## The stack (R29) -/

theorem push_none {s : State} {a : Word} : s.push a = none ↔ s.sp.val = 16 := by
  unfold State.push; split <;> simp <;> omega

theorem push_some {s t : State} {a : Word} (h : s.push a = some t) :
    ∃ hs : s.sp.val < 16, t = { s with stack := s.stack.set s.sp.val a hs, sp := ⟨s.sp.val + 1, by omega⟩ } := by
  unfold State.push at h
  split at h
  · rename_i hs; exact ⟨hs, by simpa using h.symm⟩
  · cases h

theorem push_eq {s : State} {a : Word} (hs : s.sp.val < 16) :
    s.push a = some { s with stack := s.stack.set s.sp.val a hs, sp := ⟨s.sp.val + 1, by omega⟩ } := by
  simp [State.push, hs]

theorem pop_none {s : State} : s.pop = none ↔ s.sp.val = 0 := by
  unfold State.pop; split <;> simp_all

theorem pop_some {s t : State} {a : Word} (h : s.pop = some (a, t)) :
    ∃ hs : 0 < s.sp.val, a = s.stack[s.sp.val - 1]'(by omega) ∧ t = { s with sp := ⟨s.sp.val - 1, by omega⟩ } := by
  unfold State.pop at h
  split at h
  · cases h
  · rename_i hs
    simp only [Option.some.injEq, Prod.mk.injEq] at h
    exact ⟨by omega, h.1.symm, h.2.symm⟩

theorem pop_eq {s : State} (hs : 0 < s.sp.val) :
    s.pop = some (s.stack[s.sp.val - 1]'(by omega), { s with sp := ⟨s.sp.val - 1, by omega⟩ }) := by
  unfold State.pop; rw [dif_neg (by omega)]

/-! ## Keys (R182, R186) -/

theorem keyDown_of_lt (inp : Inputs) {k : Nat} (hk : k < 16) :
    keyDown inp (BitVec.ofNat 8 k) = inp.keys.getLsbD k := by
  have : (BitVec.ofNat 8 k).toNat = k := by simp; omega
  unfold keyDown; rw [this, if_pos (by omega)]

theorem mem_downKeys {inp : Inputs} {k : Nat} : k ∈ downKeys inp ↔ k < 16 ∧ inp.keys.getLsbD k = true := by
  simp only [downKeys, List.mem_filter, List.mem_range]
  constructor
  · rintro ⟨h, hd⟩; exact ⟨h, by rwa [keyDown_of_lt inp h] at hd⟩
  · rintro ⟨h, hd⟩; exact ⟨h, by rwa [keyDown_of_lt inp h]⟩

theorem downKeys_nil {inp : Inputs} : downKeys inp = [] ↔ inp.keys = 0 := by
  rw [List.eq_nil_iff_forall_not_mem]
  constructor
  · intro h
    refine BitVec.eq_of_getLsbD_eq fun k hk => ?_
    have := h k
    rw [mem_downKeys] at this
    simp_all
  · intro h k hk
    rw [mem_downKeys, h] at hk
    simp at hk

theorem drawnKey_none {inp : Inputs} : drawnKey inp = none ↔ inp.keys = 0 := by
  rw [← downKeys_nil]; unfold drawnKey; split <;> simp_all

/-- The drawn key is a key that is down. -/
theorem drawnKey_some {inp : Inputs} {k : Nat} (h : drawnKey inp = some k) :
    k < 16 ∧ inp.keys.getLsbD k = true := by
  rw [← mem_downKeys]
  unfold drawnKey at h
  split at h
  · cases h
  · rename_i k0 ks hd
    rw [hd]
    simp only [Option.some.injEq] at h
    subst h
    have : inp.keyPick % (ks.length + 1) < (k0 :: ks).length := Nat.mod_lt _ (by simp)
    rw [List.getD_eq_getElem _ _ this]
    exact List.getElem_mem this

/-- Every down key can be the drawn one. -/
theorem drawnKey_reaches {inp : Inputs} {k : Nat} (hk : k < 16) (hd : inp.keys.getLsbD k = true) :
    ∃ pick, drawnKey { inp with keyPick := pick } = some k := by
  obtain ⟨j, hj, hget⟩ := List.mem_iff_getElem.1 (mem_downKeys.2 ⟨hk, hd⟩)
  have same : downKeys { inp with keyPick := j } = downKeys inp := rfl
  refine ⟨j, ?_⟩
  unfold drawnKey
  rw [same]
  cases hl : downKeys inp with
  | nil => simp [hl] at hj
  | cons k0 ks =>
    simp only [hl, List.length_cons] at hj
    simp only [hl] at hget
    simp [Nat.mod_eq_of_lt hj, hget, hj]

/-! ## Timers (R213, R237) -/

theorem toNat_decrement (t : Byte) : (decrement t).toNat = t.toNat - 1 := by
  unfold decrement
  have := t.isLt
  split
  · rw [BitVec.toNat_sub]; simp; omega
  · omega

theorem toNat_countDown (k : Nat) (t : Byte) : (countDown k t).toNat = t.toNat - k := by
  unfold countDown
  have := t.isLt
  split
  · simp_all
  · rw [BitVec.toNat_ofNat]; omega

/-- The closed form of any number of ticks. -/
theorem countDown_succ (k : Nat) (t : Byte) : countDown (k + 1) t = countDown k (decrement t) := by
  apply BitVec.eq_of_toNat_eq
  rw [toNat_countDown, toNat_countDown, toNat_decrement]; omega

@[simp] theorem countDown_zero (t : Byte) : countDown 0 t = t := by
  apply BitVec.eq_of_toNat_eq; rw [toNat_countDown]; rfl

theorem tick_eq {s : State} (h : s.halted = false) :
    tick s = { s with dt := decrement s.dt, st := decrement s.st } := by simp [tick, h]

/-- `k` ticks of a running block. -/
theorem ticks_eq (k : Nat) {s : State} (h : s.halted = false) :
    tick^[k] s = { s with dt := countDown k s.dt, st := countDown k s.st } := by
  induction k generalizing s with
  | zero => simp
  | succ k ih => rw [Function.iterate_succ_apply, tick_eq h, ih (by exact h)]; simp [countDown_succ]

/-! ## Fetching (R65, R66) -/

theorem fetch_ok {s : State} (h : s.pc.toNat + 1 < 0x1000) :
    s.fetch = .ok (wordOfBytes (Memory.read s.mem s.pc.toNat) (Memory.read s.mem (s.pc.toNat + 1))) := by
  unfold State.fetch; rw [if_neg]; simp; omega

theorem fetch_error {s : State} (h : 0x1000 ≤ s.pc.toNat + 1) : s.fetch = .error (max s.pc.toNat 0x1000) := by
  unfold State.fetch
  rw [if_pos (by simpa using h)]
  congr 1
  split <;> simp at * <;> omega

theorem fetch_environment (s : State) : (environment s).fetch = s.fetch := rfl

theorem advance_le {pc : Word} {u : PcUpdate} (h : pc.toNat ≤ 0xFFE) (hj : ∀ t, u = .jump t → t.toNat ≤ 0x10FE) :
    (advance pc u).toNat ≤ 0x10FE := by
  cases u with
  | next => simp only [advance]; rw [BitVec.toNat_add]; simp; omega
  | skip c => simp only [advance]; split <;> rw [BitVec.toNat_add] <;> simp <;> omega
  | jump t => exact hj t rfl
  | wait => simp only [advance]; omega

end Sys2Proof.Machine
end

