-- ==== Sys2Proof/Laws/Exec.lean ====
section
/-! SUPPORT. One lemma per meaning that says once what it answers (for an instruction with a fatal condition, one lemma for
each side of it), and what a step is. Later proofs cite these instead of unfolding a meaning. -/

namespace Sys2Proof.Machine

variable (s : State) (x y : Reg) (nn : Byte) (nnn : Imm12)

/-! ## Instructions without a fatal condition -/

theorem exec_sys : exec (.sys nnn) s = .next { s with pc := s.pc + 2 } := rfl
theorem exec_cls : exec .cls s = .next { s with fb := 0, pc := s.pc + 2 } := rfl
theorem exec_jp : exec (.jp nnn) s = .next { s with pc := immAddress nnn } := rfl
theorem exec_jpV0 : exec (.jpV0 nnn) s = .next { s with pc := zext16 (s.reg 0) + immAddress nnn } := rfl

theorem exec_seImm :
    exec (.seImm x nn) s = .next { s with pc := if s.reg x = nn then s.pc + 4 else s.pc + 2 } := by
  simp [exec, execSeImm, State.finish, advance]

theorem exec_sneImm :
    exec (.sneImm x nn) s = .next { s with pc := if s.reg x = nn then s.pc + 2 else s.pc + 4 } := by
  by_cases h : s.reg x = nn <;> simp [exec, execSneImm, State.finish, advance, h]

theorem exec_seReg :
    exec (.seReg x y) s = .next { s with pc := if s.reg x = s.reg y then s.pc + 4 else s.pc + 2 } := by
  simp [exec, execSeReg, State.finish, advance]

theorem exec_sneReg :
    exec (.sneReg x y) s = .next { s with pc := if s.reg x = s.reg y then s.pc + 2 else s.pc + 4 } := by
  by_cases h : s.reg x = s.reg y <;> simp [exec, execSneReg, State.finish, advance, h]

theorem exec_ldImm : exec (.ldImm x nn) s = .next { s.setReg x nn with pc := s.pc + 2 } := rfl
theorem exec_addImm : exec (.addImm x nn) s = .next { s.setReg x (s.reg x + nn) with pc := s.pc + 2 } := rfl
theorem exec_ldReg : exec (.ldReg x y) s = .next { s.setReg x (s.reg y) with pc := s.pc + 2 } := rfl
theorem exec_orReg : exec (.orReg x y) s = .next { s.setReg x (s.reg x ||| s.reg y) with pc := s.pc + 2 } := rfl
theorem exec_andReg : exec (.andReg x y) s = .next { s.setReg x (s.reg x &&& s.reg y) with pc := s.pc + 2 } := rfl
theorem exec_xorReg : exec (.xorReg x y) s = .next { s.setReg x (s.reg x ^^^ s.reg y) with pc := s.pc + 2 } := rfl

theorem exec_addReg : exec (.addReg x y) s =
    .next { s.setResultAndFlag x (s.reg x + s.reg y) (carryOut (s.reg x) (s.reg y)) with pc := s.pc + 2 } := rfl
theorem exec_subReg : exec (.subReg x y) s =
    .next { s.setResultAndFlag x (s.reg x - s.reg y) (noBorrow (s.reg x) (s.reg y)) with pc := s.pc + 2 } := rfl
theorem exec_shr : exec (.shr x y) s =
    .next { s.setResultAndFlag x (s.reg x >>> 1) (lowBit (s.reg x)) with pc := s.pc + 2 } := rfl
theorem exec_subnReg : exec (.subnReg x y) s =
    .next { s.setResultAndFlag x (s.reg y - s.reg x) (noBorrow (s.reg y) (s.reg x)) with pc := s.pc + 2 } := rfl
theorem exec_shl : exec (.shl x y) s =
    .next { s.setResultAndFlag x (s.reg x <<< 1) (highBit (s.reg x)) with pc := s.pc + 2 } := rfl

theorem exec_rnd : exec (.rnd x nn) s =
    .next { s.setReg x (s.inputs.rand &&& nn) with randDraws := s.randDraws + 1, pc := s.pc + 2 } := rfl

theorem exec_ldI : exec (.ldI nnn) s = .next { s with i := immAddress nnn, pc := s.pc + 2 } := rfl
theorem exec_addI : exec (.addI x) s = .next { s with i := s.i + zext16 (s.reg x), pc := s.pc + 2 } := rfl
theorem exec_ldF : exec (.ldF x) s = .next { s with i := glyphAddress (s.reg x), pc := s.pc + 2 } := rfl

theorem exec_skp : exec (.skp x) s =
    .next { s with pc := if keyDown s.inputs (s.reg x) then s.pc + 4 else s.pc + 2 } := rfl
theorem exec_sknp : exec (.sknp x) s =
    .next { s with pc := if keyDown s.inputs (s.reg x) then s.pc + 2 else s.pc + 4 } := by
  by_cases h : keyDown s.inputs (s.reg x) <;> simp [exec, execSknp, State.finish, advance, h]

theorem exec_ldVxDt : exec (.ldVxDt x) s = .next { s.setReg x s.dt with pc := s.pc + 2 } := rfl
theorem exec_ldDtVx : exec (.ldDtVx x) s = .next { s with dt := s.reg x, pc := s.pc + 2 } := rfl
theorem exec_ldStVx : exec (.ldStVx x) s = .next { s with st := s.reg x, pc := s.pc + 2 } := rfl

/-- FX0A with no key down: the same state again (R182). -/
theorem exec_ldVxK_wait {s : State} (x : Reg) (h : drawnKey s.inputs = none) : exec (.ldVxK x) s = .next s := by
  simp [exec, execLdVxK, h, State.takeKey, advance]

theorem exec_ldVxK_key {s : State} (x : Reg) {k : Nat} (h : drawnKey s.inputs = some k) :
    exec (.ldVxK x) s = .next { s.setReg x (BitVec.ofNat 8 k) with pc := s.pc + 2 } := by
  simp [exec, execLdVxK, h, State.takeKey, advance]

/-! ## Instructions with a fatal condition -/

theorem exec_call_overflow {s : State} (nnn : Imm12) (h : s.sp.val = 16) :
    exec (.call nnn) s = .next (s.raiseFatal .stackOverflow (some (encode (.call nnn))) none) := by
  simp only [exec, execCall, push_none.2 h]

theorem exec_call {s : State} (nnn : Imm12) (h : s.sp.val < 16) :
    exec (.call nnn) s =
      .next { s with stack := s.stack.set s.sp.val (s.pc + 2) h, sp := ⟨s.sp.val + 1, by omega⟩,
                     pc := immAddress nnn } := by
  simp only [exec, execCall, push_eq h]; rfl

theorem exec_ret_underflow {s : State} (h : s.sp.val = 0) :
    exec .ret s = .next (s.raiseFatal .stackUnderflow (some 0x00EE) none) := by
  simp only [exec, execRet, pop_none.2 h]; rfl

theorem exec_ret {s : State} (h : 0 < s.sp.val) :
    exec .ret s =
      .next { s with sp := ⟨s.sp.val - 1, by omega⟩, pc := s.stack[s.sp.val - 1]'(by omega) } := by
  simp only [exec, execRet, pop_eq h]; rfl

theorem exec_drw_fatal {s : State} (x y : Reg) {n : Fin 16} {c : FaultCode} {ea : Nat}
    (h : s.failingRead n.val = some (c, ea)) :
    exec (.drw x y n) s = .next (s.raiseFatal c (some (encode (.drw x y n))) (some ea)) := by
  simp only [exec, execDrw, h, guarded_some]

/-- What DRW composes: its canvas (R101). -/
theorem exec_drw {s : State} (x y : Reg) {n : Fin 16} (h : s.failingRead n.val = none) :
    exec (.drw x y n) s =
      .next { s.setFlag (drawSprite s.fb (s.reg x).toNat (s.reg y).toNat n.val s.byteAtI).collide with
        fb := (drawSprite s.fb (s.reg x).toNat (s.reg y).toNat n.val s.byteAtI).fb, pc := s.pc + 2 } := by
  simp only [exec, execDrw, h, guarded_none]; rfl

theorem exec_ldB_fatal {s : State} {x : Reg} {c : FaultCode} {ea : Nat} (h : s.failingWrite 3 = some (c, ea)) :
    exec (.ldB x) s = .next (s.raiseFatal c (some (encode (.ldB x))) (some ea)) := by
  simp only [exec, execLdB, h, guarded_some]

theorem exec_ldB {s : State} (x : Reg) (h : s.failingWrite 3 = none) :
    exec (.ldB x) s = .next { s.storeAtI (bcdDigits (s.reg x)) with pc := s.pc + 2 } := by
  simp only [exec, execLdB, h, guarded_none]; rfl

theorem exec_ldMemVx_fatal {s : State} {x : Reg} {c : FaultCode} {ea : Nat}
    (h : s.failingWrite (x.val + 1) = some (c, ea)) :
    exec (.ldMemVx x) s = .next (s.raiseFatal c (some (encode (.ldMemVx x))) (some ea)) := by
  simp only [exec, execLdMemVx, h, guarded_some]

theorem exec_ldMemVx {s : State} {x : Reg} (h : s.failingWrite (x.val + 1) = none) :
    exec (.ldMemVx x) s = .next { s.storeAtI (s.regsThrough x) with pc := s.pc + 2 } := by
  simp only [exec, execLdMemVx, h, guarded_none]; rfl

theorem exec_ldVxMem_fatal {s : State} {x : Reg} {c : FaultCode} {ea : Nat}
    (h : s.failingRead (x.val + 1) = some (c, ea)) :
    exec (.ldVxMem x) s = .next (s.raiseFatal c (some (encode (.ldVxMem x))) (some ea)) := by
  simp only [exec, execLdVxMem, h, guarded_some]

theorem exec_ldVxMem {s : State} {x : Reg} (h : s.failingRead (x.val + 1) = none) :
    exec (.ldVxMem x) s = .next { s.setRegsThrough x s.byteAtI with pc := s.pc + 2 } := by
  simp only [exec, execLdVxMem, h, guarded_none]; rfl

/-! ## The step -/

theorem step_halted {s : State} (h : s.halted = true) : step s = .next s := by simp [step, freeStep, h]

theorem step_running {s : State} (h : s.halted = false) : step s = cycle (environment s) := by
  simp [step, freeStep, h]

/-- The step transaction of a running block: the cycle with exactly the given values on the input ports. -/
theorem stepWith_running {s : State} (inp : Inputs) (h : s.halted = false) :
    stepWith inp s = cycle { s with inputs := inp } := by rw [stepWith, if_neg (by simp [h])]

theorem stepWith_halted {s : State} (inp : Inputs) (h : s.halted = true) : stepWith inp s = .next s := by
  rw [stepWith, if_pos h]

/-- Everything a cycle can be: a failed fetch, an unknown opcode, or an instruction. -/
theorem cycle_cases (s : State) :
    (0x1000 ≤ s.pc.toNat + 1 ∧
      cycle s = .next (s.raiseFatal .memoryOutOfBounds none (some (max s.pc.toNat 0x1000)))) ∨
    (s.pc.toNat + 1 < 0x1000 ∧ ∃ w, s.fetch = .ok w ∧ decodeWord w = none ∧
      cycle s = .next { s with diag := .unknownOpcode w s.pc :: s.diag, pc := s.pc + 2 }) ∨
    (s.pc.toNat + 1 < 0x1000 ∧ ∃ w i, s.fetch = .ok w ∧ decodeWord w = some i ∧ cycle s = exec i s) := by
  by_cases h : s.pc.toNat + 1 < 0x1000
  · right
    have hf := fetch_ok h
    cases hd : decodeWord (wordOfBytes (Memory.read s.mem s.pc.toNat) (Memory.read s.mem (s.pc.toNat + 1))) with
    | none => exact .inl ⟨h, _, hf, hd, by simp [cycle, hf, hd, unknownOpcode, State.finish, advance]⟩
    | some i => exact .inr ⟨h, _, i, hf, hd, by simp [cycle, hf, hd]⟩
  · exact .inl ⟨by omega, by simp [cycle, fetch_error (s := s) (by omega)]⟩

/-- Everything a step of a running block can be. -/
theorem step_cases {s : State} (h : s.halted = false) :
    (0x1000 ≤ s.pc.toNat + 1 ∧
      step s = .next ((environment s).raiseFatal .memoryOutOfBounds none (some (max s.pc.toNat 0x1000)))) ∨
    (s.pc.toNat + 1 < 0x1000 ∧ ∃ w, s.fetch = .ok w ∧ decodeWord w = none ∧
      step s = .next { environment s with diag := .unknownOpcode w s.pc :: s.diag, pc := s.pc + 2 }) ∨
    (s.pc.toNat + 1 < 0x1000 ∧ ∃ w i, s.fetch = .ok w ∧ decodeWord w = some i ∧ step s = exec i (environment s)) := by
  rw [step_running h]
  exact cycle_cases (environment s)

end Sys2Proof.Machine
end

