-- ==== Sys2Proof/Laws/PerInstr.lean ====
section
/-! SUPPORT. Statements about every instruction as syntax, one lemma per constructor: decoding its word gives it back
(RoundTrip), and its word matches its own row of 30_encoding.md R84 (TableRow). -/

namespace Sys2Proof.Laws

/-- Decoding the word of a well-formed instruction gives the instruction. -/
def RoundTrip.Statement (i : Instr) : Prop := wellFormed i = true → decodeWord (encode i) = some i

/-- The word of an instruction matches the pattern of its own row of R84. -/
def TableRow.Statement (i : Instr) : Prop :=
  ∃ r ∈ opcodeTable, r.mnemonic = mnemonicOf i ∧ r.isMatch (encode i) = true


/-! ## Decode of encode -/

theorem RoundTrip.sys (nnn : Imm12) : RoundTrip.Statement (.sys nnn) := by
  intro h
  obtain ⟨h1, h2⟩ := fields_packNnn 0x0 nnn
  simp only [wellFormed, Bool.and_eq_true, bne_iff_ne, ne_eq] at h
  simp only [decodeWord, encode, h1, h2]
  exact congrArg some (by rw [decodeGroup0, if_neg h.1, if_neg h.2])

theorem RoundTrip.cls : RoundTrip.Statement (.cls) := by
  intro _; decide

theorem RoundTrip.ret : RoundTrip.Statement (.ret) := by
  intro _; decide

theorem RoundTrip.jp (nnn : Imm12) : RoundTrip.Statement (.jp nnn) := by
  intro _
  obtain ⟨h1, h2⟩ := fields_packNnn 0x1 nnn
  simp only [decodeWord, encode, h1, h2]
  rfl

theorem RoundTrip.call (nnn : Imm12) : RoundTrip.Statement (.call nnn) := by
  intro _
  obtain ⟨h1, h2⟩ := fields_packNnn 0x2 nnn
  simp only [decodeWord, encode, h1, h2]
  rfl

theorem RoundTrip.seImm (x : Reg) (nn : Byte) : RoundTrip.Statement (.seImm x nn) := by
  intro _
  obtain ⟨h1, h2, h3⟩ := fields_packXnn 0x3 x nn
  simp only [decodeWord, encode, h1, h2, h3]
  rfl

theorem RoundTrip.sneImm (x : Reg) (nn : Byte) : RoundTrip.Statement (.sneImm x nn) := by
  intro _
  obtain ⟨h1, h2, h3⟩ := fields_packXnn 0x4 x nn
  simp only [decodeWord, encode, h1, h2, h3]
  rfl

theorem RoundTrip.seReg (x : Reg) (y : Reg) : RoundTrip.Statement (.seReg x y) := by
  intro _
  obtain ⟨h1, h2, h3, h4⟩ := fields_packXyn 0x5 x y 0x0
  simp only [decodeWord, encode, h1, h2, h3, h4]
  rfl

theorem RoundTrip.ldImm (x : Reg) (nn : Byte) : RoundTrip.Statement (.ldImm x nn) := by
  intro _
  obtain ⟨h1, h2, h3⟩ := fields_packXnn 0x6 x nn
  simp only [decodeWord, encode, h1, h2, h3]
  rfl

theorem RoundTrip.addImm (x : Reg) (nn : Byte) : RoundTrip.Statement (.addImm x nn) := by
  intro _
  obtain ⟨h1, h2, h3⟩ := fields_packXnn 0x7 x nn
  simp only [decodeWord, encode, h1, h2, h3]
  rfl

theorem RoundTrip.ldReg (x : Reg) (y : Reg) : RoundTrip.Statement (.ldReg x y) := by
  intro _
  obtain ⟨h1, h2, h3, h4⟩ := fields_packXyn 0x8 x y 0x0
  simp only [decodeWord, encode, h1, h2, h3, h4]
  rfl

theorem RoundTrip.orReg (x : Reg) (y : Reg) : RoundTrip.Statement (.orReg x y) := by
  intro _
  obtain ⟨h1, h2, h3, h4⟩ := fields_packXyn 0x8 x y 0x1
  simp only [decodeWord, encode, h1, h2, h3, h4]
  rfl

theorem RoundTrip.andReg (x : Reg) (y : Reg) : RoundTrip.Statement (.andReg x y) := by
  intro _
  obtain ⟨h1, h2, h3, h4⟩ := fields_packXyn 0x8 x y 0x2
  simp only [decodeWord, encode, h1, h2, h3, h4]
  rfl

theorem RoundTrip.xorReg (x : Reg) (y : Reg) : RoundTrip.Statement (.xorReg x y) := by
  intro _
  obtain ⟨h1, h2, h3, h4⟩ := fields_packXyn 0x8 x y 0x3
  simp only [decodeWord, encode, h1, h2, h3, h4]
  rfl

theorem RoundTrip.addReg (x : Reg) (y : Reg) : RoundTrip.Statement (.addReg x y) := by
  intro _
  obtain ⟨h1, h2, h3, h4⟩ := fields_packXyn 0x8 x y 0x4
  simp only [decodeWord, encode, h1, h2, h3, h4]
  rfl

theorem RoundTrip.subReg (x : Reg) (y : Reg) : RoundTrip.Statement (.subReg x y) := by
  intro _
  obtain ⟨h1, h2, h3, h4⟩ := fields_packXyn 0x8 x y 0x5
  simp only [decodeWord, encode, h1, h2, h3, h4]
  rfl

theorem RoundTrip.shr (x : Reg) (y : Reg) : RoundTrip.Statement (.shr x y) := by
  intro _
  obtain ⟨h1, h2, h3, h4⟩ := fields_packXyn 0x8 x y 0x6
  simp only [decodeWord, encode, h1, h2, h3, h4]
  rfl

theorem RoundTrip.subnReg (x : Reg) (y : Reg) : RoundTrip.Statement (.subnReg x y) := by
  intro _
  obtain ⟨h1, h2, h3, h4⟩ := fields_packXyn 0x8 x y 0x7
  simp only [decodeWord, encode, h1, h2, h3, h4]
  rfl

theorem RoundTrip.shl (x : Reg) (y : Reg) : RoundTrip.Statement (.shl x y) := by
  intro _
  obtain ⟨h1, h2, h3, h4⟩ := fields_packXyn 0x8 x y 0xE
  simp only [decodeWord, encode, h1, h2, h3, h4]
  rfl

theorem RoundTrip.sneReg (x : Reg) (y : Reg) : RoundTrip.Statement (.sneReg x y) := by
  intro _
  obtain ⟨h1, h2, h3, h4⟩ := fields_packXyn 0x9 x y 0x0
  simp only [decodeWord, encode, h1, h2, h3, h4]
  rfl

theorem RoundTrip.ldI (nnn : Imm12) : RoundTrip.Statement (.ldI nnn) := by
  intro _
  obtain ⟨h1, h2⟩ := fields_packNnn 0xa nnn
  simp only [decodeWord, encode, h1, h2]
  rfl

theorem RoundTrip.jpV0 (nnn : Imm12) : RoundTrip.Statement (.jpV0 nnn) := by
  intro _
  obtain ⟨h1, h2⟩ := fields_packNnn 0xb nnn
  simp only [decodeWord, encode, h1, h2]
  rfl

theorem RoundTrip.rnd (x : Reg) (nn : Byte) : RoundTrip.Statement (.rnd x nn) := by
  intro _
  obtain ⟨h1, h2, h3⟩ := fields_packXnn 0xc x nn
  simp only [decodeWord, encode, h1, h2, h3]
  rfl

theorem RoundTrip.drw (x : Reg) (y : Reg) (n : Fin 16) : RoundTrip.Statement (.drw x y n) := by
  intro _
  obtain ⟨h1, h2, h3, h4⟩ := fields_packXyn 0xd x y (nibbleOfFin n)
  simp only [decodeWord, encode, h1, h2, h3, h4, regOfNibble_nibbleOfFin]
  rfl

theorem RoundTrip.skp (x : Reg) : RoundTrip.Statement (.skp x) := by
  intro _
  obtain ⟨h1, h2, h3⟩ := fields_packXnn 0xe x 0x9e
  simp only [decodeWord, encode, h1, h2, h3]
  rfl

theorem RoundTrip.sknp (x : Reg) : RoundTrip.Statement (.sknp x) := by
  intro _
  obtain ⟨h1, h2, h3⟩ := fields_packXnn 0xe x 0xa1
  simp only [decodeWord, encode, h1, h2, h3]
  rfl

theorem RoundTrip.ldVxDt (x : Reg) : RoundTrip.Statement (.ldVxDt x) := by
  intro _
  obtain ⟨h1, h2, h3⟩ := fields_packXnn 0xf x 0x7
  simp only [decodeWord, encode, h1, h2, h3]
  rfl

theorem RoundTrip.ldVxK (x : Reg) : RoundTrip.Statement (.ldVxK x) := by
  intro _
  obtain ⟨h1, h2, h3⟩ := fields_packXnn 0xf x 0xa
  simp only [decodeWord, encode, h1, h2, h3]
  rfl

theorem RoundTrip.ldDtVx (x : Reg) : RoundTrip.Statement (.ldDtVx x) := by
  intro _
  obtain ⟨h1, h2, h3⟩ := fields_packXnn 0xf x 0x15
  simp only [decodeWord, encode, h1, h2, h3]
  rfl

theorem RoundTrip.ldStVx (x : Reg) : RoundTrip.Statement (.ldStVx x) := by
  intro _
  obtain ⟨h1, h2, h3⟩ := fields_packXnn 0xf x 0x18
  simp only [decodeWord, encode, h1, h2, h3]
  rfl

theorem RoundTrip.addI (x : Reg) : RoundTrip.Statement (.addI x) := by
  intro _
  obtain ⟨h1, h2, h3⟩ := fields_packXnn 0xf x 0x1e
  simp only [decodeWord, encode, h1, h2, h3]
  rfl

theorem RoundTrip.ldF (x : Reg) : RoundTrip.Statement (.ldF x) := by
  intro _
  obtain ⟨h1, h2, h3⟩ := fields_packXnn 0xf x 0x29
  simp only [decodeWord, encode, h1, h2, h3]
  rfl

theorem RoundTrip.ldB (x : Reg) : RoundTrip.Statement (.ldB x) := by
  intro _
  obtain ⟨h1, h2, h3⟩ := fields_packXnn 0xf x 0x33
  simp only [decodeWord, encode, h1, h2, h3]
  rfl

theorem RoundTrip.ldMemVx (x : Reg) : RoundTrip.Statement (.ldMemVx x) := by
  intro _
  obtain ⟨h1, h2, h3⟩ := fields_packXnn 0xf x 0x55
  simp only [decodeWord, encode, h1, h2, h3]
  rfl

theorem RoundTrip.ldVxMem (x : Reg) : RoundTrip.Statement (.ldVxMem x) := by
  intro _
  obtain ⟨h1, h2, h3⟩ := fields_packXnn 0xf x 0x65
  simp only [decodeWord, encode, h1, h2, h3]
  rfl

/-! ## Each word matches its row -/

theorem TableRow.sys (nnn : Imm12) : TableRow.Statement (.sys nnn) := by
  refine ⟨⟨"SYS_nnn", 0x0000, 0xF000⟩, by decide, rfl, ?_⟩
  obtain ⟨h1, _⟩ := fields_packNnn 0x0 nnn
  simp only [OpcodeRow.isMatch, encode, and_F000, h1]
  decide

theorem TableRow.cls : TableRow.Statement (.cls) := by
  refine ⟨⟨"CLS", 0x00E0, 0xFFFF⟩, by decide, rfl, ?_⟩
  decide

theorem TableRow.ret : TableRow.Statement (.ret) := by
  refine ⟨⟨"RET", 0x00EE, 0xFFFF⟩, by decide, rfl, ?_⟩
  decide

theorem TableRow.jp (nnn : Imm12) : TableRow.Statement (.jp nnn) := by
  refine ⟨⟨"JP_nnn", 0x1000, 0xF000⟩, by decide, rfl, ?_⟩
  obtain ⟨h1, _⟩ := fields_packNnn 0x1 nnn
  simp only [OpcodeRow.isMatch, encode, and_F000, h1]
  decide

theorem TableRow.call (nnn : Imm12) : TableRow.Statement (.call nnn) := by
  refine ⟨⟨"CALL_nnn", 0x2000, 0xF000⟩, by decide, rfl, ?_⟩
  obtain ⟨h1, _⟩ := fields_packNnn 0x2 nnn
  simp only [OpcodeRow.isMatch, encode, and_F000, h1]
  decide

theorem TableRow.seImm (x : Reg) (nn : Byte) : TableRow.Statement (.seImm x nn) := by
  refine ⟨⟨"SE_Vx__nn", 0x3000, 0xF000⟩, by decide, rfl, ?_⟩
  obtain ⟨h1, _, _⟩ := fields_packXnn 0x3 x nn
  simp only [OpcodeRow.isMatch, encode, and_F000, h1]
  decide

theorem TableRow.sneImm (x : Reg) (nn : Byte) : TableRow.Statement (.sneImm x nn) := by
  refine ⟨⟨"SNE_Vx__nn", 0x4000, 0xF000⟩, by decide, rfl, ?_⟩
  obtain ⟨h1, _, _⟩ := fields_packXnn 0x4 x nn
  simp only [OpcodeRow.isMatch, encode, and_F000, h1]
  decide

theorem TableRow.seReg (x : Reg) (y : Reg) : TableRow.Statement (.seReg x y) := by
  refine ⟨⟨"SE_Vx__Vy", 0x5000, 0xF00F⟩, by decide, rfl, ?_⟩
  obtain ⟨h1, _, _, h4⟩ := fields_packXyn 0x5 x y 0x0
  simp only [OpcodeRow.isMatch, encode, and_F00F, h1, h4]
  decide

theorem TableRow.ldImm (x : Reg) (nn : Byte) : TableRow.Statement (.ldImm x nn) := by
  refine ⟨⟨"LD_Vx__nn", 0x6000, 0xF000⟩, by decide, rfl, ?_⟩
  obtain ⟨h1, _, _⟩ := fields_packXnn 0x6 x nn
  simp only [OpcodeRow.isMatch, encode, and_F000, h1]
  decide

theorem TableRow.addImm (x : Reg) (nn : Byte) : TableRow.Statement (.addImm x nn) := by
  refine ⟨⟨"ADD_Vx__nn", 0x7000, 0xF000⟩, by decide, rfl, ?_⟩
  obtain ⟨h1, _, _⟩ := fields_packXnn 0x7 x nn
  simp only [OpcodeRow.isMatch, encode, and_F000, h1]
  decide

theorem TableRow.ldReg (x : Reg) (y : Reg) : TableRow.Statement (.ldReg x y) := by
  refine ⟨⟨"LD_Vx__Vy", 0x8000, 0xF00F⟩, by decide, rfl, ?_⟩
  obtain ⟨h1, _, _, h4⟩ := fields_packXyn 0x8 x y 0x0
  simp only [OpcodeRow.isMatch, encode, and_F00F, h1, h4]
  decide

theorem TableRow.orReg (x : Reg) (y : Reg) : TableRow.Statement (.orReg x y) := by
  refine ⟨⟨"OR_Vx__Vy", 0x8001, 0xF00F⟩, by decide, rfl, ?_⟩
  obtain ⟨h1, _, _, h4⟩ := fields_packXyn 0x8 x y 0x1
  simp only [OpcodeRow.isMatch, encode, and_F00F, h1, h4]
  decide

theorem TableRow.andReg (x : Reg) (y : Reg) : TableRow.Statement (.andReg x y) := by
  refine ⟨⟨"AND_Vx__Vy", 0x8002, 0xF00F⟩, by decide, rfl, ?_⟩
  obtain ⟨h1, _, _, h4⟩ := fields_packXyn 0x8 x y 0x2
  simp only [OpcodeRow.isMatch, encode, and_F00F, h1, h4]
  decide

theorem TableRow.xorReg (x : Reg) (y : Reg) : TableRow.Statement (.xorReg x y) := by
  refine ⟨⟨"XOR_Vx__Vy", 0x8003, 0xF00F⟩, by decide, rfl, ?_⟩
  obtain ⟨h1, _, _, h4⟩ := fields_packXyn 0x8 x y 0x3
  simp only [OpcodeRow.isMatch, encode, and_F00F, h1, h4]
  decide

theorem TableRow.addReg (x : Reg) (y : Reg) : TableRow.Statement (.addReg x y) := by
  refine ⟨⟨"ADD_Vx__Vy", 0x8004, 0xF00F⟩, by decide, rfl, ?_⟩
  obtain ⟨h1, _, _, h4⟩ := fields_packXyn 0x8 x y 0x4
  simp only [OpcodeRow.isMatch, encode, and_F00F, h1, h4]
  decide

theorem TableRow.subReg (x : Reg) (y : Reg) : TableRow.Statement (.subReg x y) := by
  refine ⟨⟨"SUB_Vx__Vy", 0x8005, 0xF00F⟩, by decide, rfl, ?_⟩
  obtain ⟨h1, _, _, h4⟩ := fields_packXyn 0x8 x y 0x5
  simp only [OpcodeRow.isMatch, encode, and_F00F, h1, h4]
  decide

theorem TableRow.shr (x : Reg) (y : Reg) : TableRow.Statement (.shr x y) := by
  refine ⟨⟨"SHR_Vx", 0x8006, 0xF00F⟩, by decide, rfl, ?_⟩
  obtain ⟨h1, _, _, h4⟩ := fields_packXyn 0x8 x y 0x6
  simp only [OpcodeRow.isMatch, encode, and_F00F, h1, h4]
  decide

theorem TableRow.subnReg (x : Reg) (y : Reg) : TableRow.Statement (.subnReg x y) := by
  refine ⟨⟨"SUBN_Vx__Vy", 0x8007, 0xF00F⟩, by decide, rfl, ?_⟩
  obtain ⟨h1, _, _, h4⟩ := fields_packXyn 0x8 x y 0x7
  simp only [OpcodeRow.isMatch, encode, and_F00F, h1, h4]
  decide

theorem TableRow.shl (x : Reg) (y : Reg) : TableRow.Statement (.shl x y) := by
  refine ⟨⟨"SHL_Vx", 0x800E, 0xF00F⟩, by decide, rfl, ?_⟩
  obtain ⟨h1, _, _, h4⟩ := fields_packXyn 0x8 x y 0xe
  simp only [OpcodeRow.isMatch, encode, and_F00F, h1, h4]
  decide

theorem TableRow.sneReg (x : Reg) (y : Reg) : TableRow.Statement (.sneReg x y) := by
  refine ⟨⟨"SNE_Vx__Vy", 0x9000, 0xF00F⟩, by decide, rfl, ?_⟩
  obtain ⟨h1, _, _, h4⟩ := fields_packXyn 0x9 x y 0x0
  simp only [OpcodeRow.isMatch, encode, and_F00F, h1, h4]
  decide

theorem TableRow.ldI (nnn : Imm12) : TableRow.Statement (.ldI nnn) := by
  refine ⟨⟨"LD_I__nnn", 0xA000, 0xF000⟩, by decide, rfl, ?_⟩
  obtain ⟨h1, _⟩ := fields_packNnn 0xa nnn
  simp only [OpcodeRow.isMatch, encode, and_F000, h1]
  decide

theorem TableRow.jpV0 (nnn : Imm12) : TableRow.Statement (.jpV0 nnn) := by
  refine ⟨⟨"JP_V0__nnn", 0xB000, 0xF000⟩, by decide, rfl, ?_⟩
  obtain ⟨h1, _⟩ := fields_packNnn 0xb nnn
  simp only [OpcodeRow.isMatch, encode, and_F000, h1]
  decide

theorem TableRow.rnd (x : Reg) (nn : Byte) : TableRow.Statement (.rnd x nn) := by
  refine ⟨⟨"RND_Vx__nn", 0xC000, 0xF000⟩, by decide, rfl, ?_⟩
  obtain ⟨h1, _, _⟩ := fields_packXnn 0xc x nn
  simp only [OpcodeRow.isMatch, encode, and_F000, h1]
  decide

theorem TableRow.drw (x : Reg) (y : Reg) (n : Fin 16) : TableRow.Statement (.drw x y n) := by
  refine ⟨⟨"DRW_Vx__Vy__n", 0xD000, 0xF000⟩, by decide, rfl, ?_⟩
  obtain ⟨h1, _, _, _⟩ := fields_packXyn 0xd x y (nibbleOfFin n)
  simp only [OpcodeRow.isMatch, encode, and_F000, h1]
  decide

theorem TableRow.skp (x : Reg) : TableRow.Statement (.skp x) := by
  refine ⟨⟨"SKP_Vx", 0xE09E, 0xF0FF⟩, by decide, rfl, ?_⟩
  obtain ⟨h1, _, h3⟩ := fields_packXnn 0xe x 0x9e
  simp only [OpcodeRow.isMatch, encode, and_F0FF, h1, h3]
  decide

theorem TableRow.sknp (x : Reg) : TableRow.Statement (.sknp x) := by
  refine ⟨⟨"SKNP_Vx", 0xE0A1, 0xF0FF⟩, by decide, rfl, ?_⟩
  obtain ⟨h1, _, h3⟩ := fields_packXnn 0xe x 0xa1
  simp only [OpcodeRow.isMatch, encode, and_F0FF, h1, h3]
  decide

theorem TableRow.ldVxDt (x : Reg) : TableRow.Statement (.ldVxDt x) := by
  refine ⟨⟨"LD_Vx__DT", 0xF007, 0xF0FF⟩, by decide, rfl, ?_⟩
  obtain ⟨h1, _, h3⟩ := fields_packXnn 0xf x 0x7
  simp only [OpcodeRow.isMatch, encode, and_F0FF, h1, h3]
  decide

theorem TableRow.ldVxK (x : Reg) : TableRow.Statement (.ldVxK x) := by
  refine ⟨⟨"LD_Vx__K", 0xF00A, 0xF0FF⟩, by decide, rfl, ?_⟩
  obtain ⟨h1, _, h3⟩ := fields_packXnn 0xf x 0xa
  simp only [OpcodeRow.isMatch, encode, and_F0FF, h1, h3]
  decide

theorem TableRow.ldDtVx (x : Reg) : TableRow.Statement (.ldDtVx x) := by
  refine ⟨⟨"LD_DT__Vx", 0xF015, 0xF0FF⟩, by decide, rfl, ?_⟩
  obtain ⟨h1, _, h3⟩ := fields_packXnn 0xf x 0x15
  simp only [OpcodeRow.isMatch, encode, and_F0FF, h1, h3]
  decide

theorem TableRow.ldStVx (x : Reg) : TableRow.Statement (.ldStVx x) := by
  refine ⟨⟨"LD_ST__Vx", 0xF018, 0xF0FF⟩, by decide, rfl, ?_⟩
  obtain ⟨h1, _, h3⟩ := fields_packXnn 0xf x 0x18
  simp only [OpcodeRow.isMatch, encode, and_F0FF, h1, h3]
  decide

theorem TableRow.addI (x : Reg) : TableRow.Statement (.addI x) := by
  refine ⟨⟨"ADD_I__Vx", 0xF01E, 0xF0FF⟩, by decide, rfl, ?_⟩
  obtain ⟨h1, _, h3⟩ := fields_packXnn 0xf x 0x1e
  simp only [OpcodeRow.isMatch, encode, and_F0FF, h1, h3]
  decide

theorem TableRow.ldF (x : Reg) : TableRow.Statement (.ldF x) := by
  refine ⟨⟨"LD_F__Vx", 0xF029, 0xF0FF⟩, by decide, rfl, ?_⟩
  obtain ⟨h1, _, h3⟩ := fields_packXnn 0xf x 0x29
  simp only [OpcodeRow.isMatch, encode, and_F0FF, h1, h3]
  decide

theorem TableRow.ldB (x : Reg) : TableRow.Statement (.ldB x) := by
  refine ⟨⟨"LD_B__Vx", 0xF033, 0xF0FF⟩, by decide, rfl, ?_⟩
  obtain ⟨h1, _, h3⟩ := fields_packXnn 0xf x 0x33
  simp only [OpcodeRow.isMatch, encode, and_F0FF, h1, h3]
  decide

theorem TableRow.ldMemVx (x : Reg) : TableRow.Statement (.ldMemVx x) := by
  refine ⟨⟨"LD__I___Vx", 0xF055, 0xF0FF⟩, by decide, rfl, ?_⟩
  obtain ⟨h1, _, h3⟩ := fields_packXnn 0xf x 0x55
  simp only [OpcodeRow.isMatch, encode, and_F0FF, h1, h3]
  decide

theorem TableRow.ldVxMem (x : Reg) : TableRow.Statement (.ldVxMem x) := by
  refine ⟨⟨"LD_Vx___I", 0xF065, 0xF0FF⟩, by decide, rfl, ?_⟩
  obtain ⟨h1, _, h3⟩ := fields_packXnn 0xf x 0x65
  simp only [OpcodeRow.isMatch, encode, and_F0FF, h1, h3]
  decide

end Sys2Proof.Laws
end

