-- ==== Sys2Proof/Tests/Slice0.lean ====
section
/-! SUPPORT. The model's own tests. Expected values come from the spec's worked vectors (95_test_vectors.md, L1 and V1 to
V117) and from the rules; one step each. At the end, for every statement with hypotheses, a witness that meets them. -/

namespace Sys2Proof.Tests

open Sys2Proof.Machine

/-! ## Well-formedness: the one check, on its two ill-formed terms (30_encoding.md R84 row 1) -/

theorem test_sys_0E0_is_ill_formed : wellFormed (.sys 0x0E0) = false := by decide
theorem test_sys_0EE_is_ill_formed : wellFormed (.sys 0x0EE) = false := by decide
theorem test_sys_0E1_is_well_formed : wellFormed (.sys 0x0E1) = true := by decide

/-! ## Decoding: one word of each row of 30_encoding.md R84, written out from its pattern -/

theorem test_decode_sys : decodeWord 0x0123 = some (.sys 0x123) := by decide
theorem test_decode_cls : decodeWord 0x00E0 = some (.cls) := by decide
theorem test_decode_ret : decodeWord 0x00EE = some (.ret) := by decide
theorem test_decode_jp : decodeWord 0x1ABC = some (.jp 0xABC) := by decide
theorem test_decode_call : decodeWord 0x2300 = some (.call 0x300) := by decide
theorem test_decode_seImm : decodeWord 0x3142 = some (.seImm 1 0x42) := by decide
theorem test_decode_sneImm : decodeWord 0x4143 = some (.sneImm 1 0x43) := by decide
theorem test_decode_seReg : decodeWord 0x5120 = some (.seReg 1 2) := by decide
theorem test_decode_ldImm : decodeWord 0x6A42 = some (.ldImm 10 0x42) := by decide
theorem test_decode_addImm : decodeWord 0x7202 = some (.addImm 2 0x02) := by decide
theorem test_decode_ldReg : decodeWord 0x8120 = some (.ldReg 1 2) := by decide
theorem test_decode_orReg : decodeWord 0x8121 = some (.orReg 1 2) := by decide
theorem test_decode_andReg : decodeWord 0x8122 = some (.andReg 1 2) := by decide
theorem test_decode_xorReg : decodeWord 0x8123 = some (.xorReg 1 2) := by decide
theorem test_decode_addReg : decodeWord 0x81F4 = some (.addReg 1 15) := by decide
theorem test_decode_subReg : decodeWord 0x8F15 = some (.subReg 15 1) := by decide
theorem test_decode_shr : decodeWord 0x8126 = some (.shr 1 2) := by decide
theorem test_decode_subnReg : decodeWord 0x8127 = some (.subnReg 1 2) := by decide
theorem test_decode_shl : decodeWord 0x812E = some (.shl 1 2) := by decide
theorem test_decode_sneReg : decodeWord 0x9120 = some (.sneReg 1 2) := by decide
theorem test_decode_ldI : decodeWord 0xA22A = some (.ldI 0x22A) := by decide
theorem test_decode_jpV0 : decodeWord 0xBFFF = some (.jpV0 0xFFF) := by decide
theorem test_decode_rnd : decodeWord 0xC30F = some (.rnd 3 0x0F) := by decide
theorem test_decode_drw : decodeWord 0xD01F = some (.drw 0 1 15) := by decide
theorem test_decode_skp : decodeWord 0xE19E = some (.skp 1) := by decide
theorem test_decode_sknp : decodeWord 0xE1A1 = some (.sknp 1) := by decide
theorem test_decode_ldVxDt : decodeWord 0xF107 = some (.ldVxDt 1) := by decide
theorem test_decode_ldVxK : decodeWord 0xF10A = some (.ldVxK 1) := by decide
theorem test_decode_ldDtVx : decodeWord 0xF115 = some (.ldDtVx 1) := by decide
theorem test_decode_ldStVx : decodeWord 0xF118 = some (.ldStVx 1) := by decide
theorem test_decode_addI : decodeWord 0xF11E = some (.addI 1) := by decide
theorem test_decode_ldF : decodeWord 0xF129 = some (.ldF 1) := by decide
theorem test_decode_ldB : decodeWord 0xFA33 = some (.ldB 10) := by decide
theorem test_decode_ldMemVx : decodeWord 0xF255 = some (.ldMemVx 2) := by decide
theorem test_decode_ldVxMem : decodeWord 0xF265 = some (.ldVxMem 2) := by decide

/-! Reserved words of each group are unknown opcodes, never a neighbour (R86; L1.10, V33, V36, V66, V67). -/

theorem test_unknown_5xy1 : decodeWord 0x5121 = none := by decide
theorem test_unknown_8xy8 : decodeWord 0x8128 = none := by decide
theorem test_unknown_8xyF : decodeWord 0x812F = none := by decide
theorem test_unknown_9xy1 : decodeWord 0x9121 = none := by decide
theorem test_unknown_ExA2 : decodeWord 0xE1A2 = none := by decide
theorem test_unknown_Fx19 : decodeWord 0xF119 = none := by decide

/-- The bytes of a word lie high byte first (R65), and a byte alone is no instruction (R88). -/
theorem test_decode_bytes : decode [0xA2, 0x2A, 0x60] = .ok (.ldI 0x22A, [0x60]) ∧ decode [0xA2] = .error .truncated := by
  decide

/-- L1.5: the fields of 0xD01F. -/
theorem test_fields_D01F :
    fieldsOf 0xD01F = { op0 := 0xD, x := 0x0, y := 0x1, n := 0xF, nn := 0x1F, nnn := 0x01F } := by decide

/-- R96: the assembly of the source's scenario. -/
theorem test_assembly_R96 :
    [0x00E0, 0xA22A, 0x600C, 0x6108, 0xD01F, 0x7009].map (fun w => (decodeWord w).map assembly) =
      [some "CLS", some "LD I, 0x22A", some "LD V0, 0x0C", some "LD V1, 0x08", some "DRW V0, V1, 15",
       some "ADD V0, 0x09"] := by decide

/-! ## One step of each instruction -/

/-- The spec's start state (95_test_vectors.md "Conventions") with some registers set. -/
def start (regs : List (Reg × Byte)) : State := regs.foldl (fun s p => s.setReg p.1 p.2) State.reset

/-- One instruction cycle with the word at PC. -/
def run (w : Word) (s : State) : Result := cycle (s.placeWord w)

/-- Part of the next state. -/
def see {α : Type} (f : State → α) : Result → Option α
  | .next t => some (f t)
  | .fault _ => none
  | .refused _ => none

/-- Part of the next state, when the block goes on. -/
def seeRunning {α : Type} (f : State → α) : Result → Option α
  | .next t => if t.halted then none else some (f t)
  | .fault _ => none
  | .refused _ => none

/-- The key port with these keys down. -/
def keys (ks : BitVec 16) : Inputs := { keys := ks, rand := 0, outsideKey := false, keyPick := 0 }

/-! ### Control transfer -/

/-- V13: no effect, no event. -/
theorem test_sys :
    seeRunning (fun t => (t.pc, t.diag)) (run 0x0123 (start [])) = some (0x202, []) := by decide
/-- V15. -/
theorem test_ret :
    seeRunning (fun t => (t.pc, t.sp, t.stack[0])) (run 0x00EE { start [] with pc := 0x30A, sp := 1, stack := (Vector.replicate 16 0).set 0 0x206 }) = some (0x206, 0, 0x206) := by decide
/-- V16. -/
theorem test_ret_underflow :
    see (fun t => (t.halted, t.fault, t.pc)) (run 0x00EE { start [] with pc := 0x30A }) =
      some (true, some ⟨.stackUnderflow, some 0x00EE, 0x30A, none⟩, 0x30A) := by decide
/-- V18. -/
theorem test_jp :
    seeRunning (fun t => t.pc) (run 0x1ABC (start [])) = some 0xABC := by decide
/-- V21. -/
theorem test_call_fills_the_stack :
    seeRunning (fun t => (t.pc, t.sp, t.stack[15])) (run 0x2300 { start [] with pc := 0x204, sp := 15 }) = some (0x300, 16, 0x206) := by decide
/-- V22. -/
theorem test_call_overflow :
    see (fun t => (t.halted, t.fault, t.pc)) (run 0x2300 { start [] with pc := 0x204, sp := 16 }) =
      some (true, some ⟨.stackOverflow, some 0x2300, 0x204, none⟩, 0x204) := by decide
/-- V24. -/
theorem test_seImm :
    seeRunning (fun t => t.pc) (run 0x3142 (start [(1, 0x42)])) = some 0x204 := by decide
/-- V25. -/
theorem test_seImm_not :
    seeRunning (fun t => t.pc) (run 0x3143 (start [(1, 0x42)])) = some 0x202 := by decide
/-- V29. -/
theorem test_sneImm :
    seeRunning (fun t => t.pc) (run 0x4143 (start [(1, 0x42)])) = some 0x204 := by decide
/-- V28. -/
theorem test_sneImm_not :
    seeRunning (fun t => t.pc) (run 0x4142 (start [(1, 0x42)])) = some 0x202 := by decide
/-- V30. -/
theorem test_seReg :
    seeRunning (fun t => t.pc) (run 0x5120 (start [(1, 7), (2, 7)])) = some 0x204 := by decide
/-- V31. -/
theorem test_seReg_not :
    seeRunning (fun t => t.pc) (run 0x5120 (start [(1, 7), (2, 8)])) = some 0x202 := by decide
/-- V34. -/
theorem test_sneReg :
    seeRunning (fun t => t.pc) (run 0x9120 (start [(1, 7), (2, 8)])) = some 0x204 := by decide
/-- V35. -/
theorem test_sneReg_not :
    seeRunning (fun t => t.pc) (run 0x9120 (start [(1, 7), (2, 7)])) = some 0x202 := by decide
/-- V38. -/
theorem test_jpV0_past_memory :
    seeRunning (fun t => t.pc) (run 0xBFFF (start [(0, 0xFF)])) = some 0x10FE := by decide
/-- V39. -/
theorem test_jpV0_uses_V0 :
    seeRunning (fun t => t.pc) (run 0xBE00 (start [(14, 0x55)])) = some 0xE00 := by decide

/-! ### Registers and ALU -/

/-- V40. -/
theorem test_ldImm :
    seeRunning (fun t => (t.reg 10, t.pc)) (run 0x6A42 (start [])) = some (0x42, 0x202) := by decide
/-- V42: no flag. -/
theorem test_addImm_wraps :
    seeRunning (fun t => (t.reg 1, t.reg 15)) (run 0x7101 (start [(1, 0xFF)])) = some (0, 0) := by decide
/-- V44. -/
theorem test_ldReg :
    seeRunning (fun t => (t.reg 1, t.reg 2)) (run 0x8120 (start [(1, 1), (2, 0x99)])) = some (0x99, 0x99) := by decide
/-- V45: VF stays. -/
theorem test_orReg :
    seeRunning (fun t => (t.reg 1, t.reg 15)) (run 0x8121 (start [(1, 0xF0), (2, 0x0F), (15, 0x55)])) = some (0xFF, 0x55) := by decide
/-- V46. -/
theorem test_andReg :
    seeRunning (fun t => (t.reg 1, t.reg 15)) (run 0x8122 (start [(1, 0xF0), (2, 0x3C), (15, 0x55)])) = some (0x30, 0x55) := by decide
/-- V47. -/
theorem test_xorReg :
    seeRunning (fun t => t.reg 1) (run 0x8123 (start [(1, 0xF0), (2, 0x3C)])) = some 0xCC := by decide
/-- V51. -/
theorem test_addReg_carry :
    seeRunning (fun t => (t.reg 1, t.reg 15)) (run 0x8124 (start [(1, 0xFF), (2, 0xFF)])) = some (0xFE, 1) := by decide
/-- V54. -/
theorem test_addReg_reads_the_old_VF :
    seeRunning (fun t => (t.reg 1, t.reg 15)) (run 0x81F4 (start [(1, 0xFF), (15, 1)])) = some (0, 1) := by decide
/-- L1.2. -/
theorem test_subReg_borrow :
    seeRunning (fun t => (t.reg 1, t.reg 15)) (run 0x8125 (start [(1, 0x03), (2, 0x05)])) = some (0xFE, 0) := by decide
/-- V55. -/
theorem test_subReg_into_VF :
    seeRunning (fun t => t.reg 15) (run 0x8F15 (start [(1, 0x20), (15, 0x10)])) = some 0 := by decide
/-- V56. -/
theorem test_shr_ignores_Vy :
    seeRunning (fun t => (t.reg 1, t.reg 15, t.reg 2)) (run 0x8126 (start [(1, 0x80), (2, 0xFF)])) = some (0x40, 0, 0xFF) := by decide
/-- V58. -/
theorem test_shr_of_VF :
    seeRunning (fun t => t.reg 15) (run 0x8FF6 (start [(15, 0x03)])) = some 1 := by decide
/-- V59. -/
theorem test_subnReg :
    seeRunning (fun t => (t.reg 1, t.reg 15)) (run 0x8127 (start [(1, 0x03), (2, 0x05)])) = some (0x02, 1) := by decide
/-- V60. -/
theorem test_subnReg_borrow :
    seeRunning (fun t => (t.reg 1, t.reg 15)) (run 0x8127 (start [(1, 0x05), (2, 0x03)])) = some (0xFE, 0) := by decide
/-- V63. -/
theorem test_shl_ignores_Vy :
    seeRunning (fun t => (t.reg 1, t.reg 15)) (run 0x812E (start [(1, 0x80), (2, 0x01)])) = some (0x00, 1) := by decide
/-- V64. -/
theorem test_shl_of_VF :
    seeRunning (fun t => t.reg 15) (run 0x8FFE (start [(15, 0x10)])) = some 0 := by decide
/-- L1.8. -/
theorem test_rnd_masks :
    seeRunning (fun t => (t.reg 3, t.randDraws)) (run 0xC30F { start [] with inputs := { keys 0 with rand := 0xA7 } }) = some (0x07, 1) := by decide
/-- V68. -/
theorem test_rnd_draws_under_mask_0 :
    seeRunning (fun t => (t.reg 3, t.randDraws)) (run 0xC300 { start [] with inputs := { keys 0 with rand := 0xA7 } }) = some (0x00, 1) := by decide

/-! ### Index register and memory -/

/-- V70. -/
theorem test_ldI :
    seeRunning (fun t => t.i) (run 0xA22A (start [])) = some 0x22A := by decide
/-- V72: no flag. -/
theorem test_addI_past_0xFFF :
    seeRunning (fun t => (t.i, t.reg 15)) (run 0xF11E { start [(1, 0x01)] with i := 0x0FFF }) = some (0x1000, 0) := by decide
/-- V73. -/
theorem test_addI_wraps :
    seeRunning (fun t => t.i) (run 0xF21E { start [(2, 0x02)] with i := 0xFFFF }) = some 0x0001 := by decide
/-- V75. -/
theorem test_ldF :
    seeRunning (fun t => t.i) (run 0xF129 (start [(1, 0x0A)])) = some 0x0082 := by decide
/-- V79. -/
theorem test_ldF_does_not_mask :
    seeRunning (fun t => t.i) (run 0xF129 (start [(1, 0xFF)])) = some 0x054B := by decide
/-- L1.6. -/
theorem test_ldB :
    seeRunning (fun t => (Memory.read t.mem 0x300, Memory.read t.mem 0x301, Memory.read t.mem 0x302)) (run 0xF133 { start [(1, 143)] with i := 0x300 }) = some (1, 4, 3) := by decide
/-- V84. -/
theorem test_ldB_into_the_font :
    see (fun t => (t.halted, t.fault, t.pc)) (run 0xF133 { start [(1, 143)] with i := 0x04E }) =
      some (true, some ⟨.fontRegionWrite, some 0xF133, 0x200, some 0x050⟩, 0x200) := by decide
/-- V86: I stays. -/
theorem test_ldMemVx :
    seeRunning (fun t => ((Memory.read t.mem 0x300, Memory.read t.mem 0x301, Memory.read t.mem 0x302), t.i)) (run 0xF255 { start [(0, 1), (1, 2), (2, 3)] with i := 0x300 }) = some ((1, 2, 3), 0x300) := by decide
/-- V90. -/
theorem test_ldMemVx_past_memory :
    see (fun t => (t.halted, t.fault, t.pc)) (run 0xF255 { start [(0, 1), (1, 2), (2, 3)] with i := 0xFFE }) =
      some (true, some ⟨.memoryOutOfBounds, some 0xF255, 0x200, some 0x1000⟩, 0x200) := by decide
/-- V92. -/
theorem test_ldVxMem :
    seeRunning (fun t => (t.reg 0, t.reg 1, t.reg 2, t.i)) (run 0xF265 { start [] with i := 0x300, mem := [(0x300, 1), (0x301, 4), (0x302, 3)] }) = some (1, 4, 3, 0x300) := by decide
/-- V93. -/
theorem test_ldVxMem_reads_the_font :
    seeRunning (fun t => t.reg 0) (run 0xF065 { start [] with i := 0x050 }) = some 0xF0 := by decide

/-! ### Display -/

set_option exponentiation.threshold 2048 in
/-- V1, on one pixel. -/
theorem test_cls :
    seeRunning (fun t => (t.fb, t.pc)) (run 0x00E0 { start [] with fb := Framebuffer.setPixel 0 63 31 true }) = some (0, 0x202) := by decide
set_option exponentiation.threshold 2048 in
/-- V5. -/
theorem test_drw_wraps_in_x :
    seeRunning (fun t => (t.fb, t.reg 15)) (run 0xD121 { start [(1, 62)] with i := 0x300, mem := [(0x300, 0xF0)] }) = some (0xC000000000000003, 0) := by decide
set_option exponentiation.threshold 2048 in
/-- V10. -/
theorem test_drw_collides_at_the_old_VF :
    seeRunning (fun t => (t.fb, t.reg 15)) (run 0xDF01 { start [(15, 5)] with i := 0x300, mem := [(0x300, 0x80)], fb := Framebuffer.setPixel 0 5 0 true }) = some (0, 1) := by decide

/-! ### Keys and timers -/

/-- V96. -/
theorem test_skp :
    seeRunning (fun t => t.pc) (run 0xE19E { start [(1, 5)] with inputs := keys 0x0020 }) = some 0x204 := by decide
/-- V97. -/
theorem test_skp_other_key :
    seeRunning (fun t => t.pc) (run 0xE19E { start [(1, 5)] with inputs := keys 0x0010 }) = some 0x202 := by decide
/-- V99. -/
theorem test_sknp :
    seeRunning (fun t => t.pc) (run 0xE1A1 (start [(1, 5)])) = some 0x204 := by decide
/-- V98. -/
theorem test_sknp_key_down :
    seeRunning (fun t => t.pc) (run 0xE1A1 { start [(1, 5)] with inputs := keys 0x0020 }) = some 0x202 := by decide
/-- V102. -/
theorem test_ldVxK_waits :
    seeRunning (fun t => (t.pc, t.reg 1)) (run 0xF10A { start [] with pc := 0x300 }) = some (0x300, 0) := by decide
/-- V104. -/
theorem test_ldVxK_takes_the_key :
    seeRunning (fun t => (t.pc, t.reg 15)) (run 0xFF0A { start [(15, 9)] with pc := 0x300, inputs := keys 0x0008 }) = some (0x302, 3) := by decide
/-- V106. -/
theorem test_ldVxDt :
    seeRunning (fun t => t.reg 1) (run 0xF107 { start [] with dt := 0x3C }) = some 0x3C := by decide
/-- V107. -/
theorem test_ldDtVx :
    seeRunning (fun t => t.dt) (run 0xF115 (start [(1, 0x3C)])) = some 0x3C := by decide
/-- V108. -/
theorem test_ldStVx :
    seeRunning (fun t => t.st) (run 0xF118 (start [(1, 0x05)])) = some 0x05 := by decide

/-! ## Fetch, unknown opcodes, ticks, reset -/

/-- V111: the fetch at 0xFFF. -/
theorem test_fetch_at_FFF :
    see (fun t => (t.fault, t.pc)) (cycle { State.reset with pc := 0xFFF }) =
      some (some ⟨.memoryOutOfBounds, none, 0xFFF, some 0x1000⟩, 0xFFF) := by decide

/-- L1.10: an unknown word moves on and emits one event. -/
theorem test_unknown_word_goes_on :
    seeRunning (fun t => (t.pc, t.diag)) (run 0xE1A2 State.reset) = some (0x202, [.unknownOpcode 0xE1A2 0x200]) := by
  decide

/-- L1.11. -/
theorem test_tick :
    (tick { State.reset with dt := 1, st := 255 }).dt = 0 ∧ (tick { State.reset with dt := 1, st := 255 }).st = 254 ∧
    (tick State.reset).dt = 0 := by decide

/-- V117: an odd ROM. -/
theorem test_reset_odd_rom :
    see (fun t => (Memory.read t.mem 0x200, Memory.read t.mem 0x201, t.pc)) (loadRom defaultParams [0x12]) =
      some (0x12, 0, 0x200) := by decide

/-- V4, the font: the rows of glyph 0 (20_memory.md R76, G3). -/
theorem test_font_glyph_0 :
    (List.range 5).map (fun k => Memory.read State.reset.mem (0x050 + k)) = [0xF0, 0x90, 0x90, 0x90, 0xF0] := by decide

/-- P7: row 1 of glyph 7 is 0x10. -/
theorem test_font_glyph_7 : Memory.read State.reset.mem 0x074 = 0x10 := by decide

/-- Memory is canonical after reset. -/
theorem test_reset_memory_canonical : Memory.wf State.reset.mem := by decide

/-- Writing what an unlisted address reads as removes the cell. -/
theorem test_write_keeps_canonical :
    Memory.write (Memory.write [] 0x300 5) 0x300 0 = [] ∧ Memory.write [] 0x050 0xF0 = [] ∧
    Memory.write [(0x300, 5)] 0x200 7 = [(0x200, 7), (0x300, 5)] := by decide

/-- A word placed for the next step is the one the step runs, as the table numbers its bits. -/
theorem test_with_fetch_word :
    see (fun t => (t.reg 10, t.pc)) (step (State.reset.withFetchWord 16 0x6A42)) = some (0x42, 0x202) := by decide

theorem test_decode_table_word : decodeTableWord 16 0xA22A = some (.ldI 0x22A) ∧ decodeTableWord 16 0x5121 = none := by
  decide

/-- `quit` ends a schedule (60_exceptions.md R221). -/
theorem test_quit :
    see (fun t => t.dt) (runSchedule defaultParams [.tick, .quit, .tick] { State.reset with dt := 9 }) = some 8 := by
  decide

/-- What the host reads after reset (10_state.md R36, R40). -/
theorem test_outputs_after_reset :
    outputs State.reset = { framebuffer := 0, sound := 0, halted := false, fault := none, diag := [] } := rfl


/-! ## Witnesses: states and operands that meet the hypotheses of each statement that has some, at the ends of their
ranges -/

theorem witness_EncodeThenDecodeGivesTheInstruction :
    wellFormed (.sys 0x000) = true ∧ wellFormed (.sys 0xFFF) = true ∧ wellFormed (.drw 15 15 15) = true := by decide

theorem witness_DecodeThenEncodeGivesTheWord :
    decodeWord 0x0000 = some (.sys 0x000) ∧ decodeWord 0xFF65 = some (.ldVxMem 15) := by decide

theorem witness_OpcodeRowsAreDisjoint :
    ∃ r ∈ disjointRows, r.isMatch 0x8FF4 = true := ⟨⟨"ADD_Vx__Vy", 0x8004, 0xF00F⟩, by decide⟩

theorem witness_UnknownWordsAreNoOps :
    ∃ s w, State.fetch s = .ok w ∧ decodeWord w = none ∧ s.halted = false := ⟨State.reset.placeWord 0x5121, 0x5121, by decide⟩

/-- PC = 0xFFE is the last address that is fetched from (V110). -/
theorem witness_StepRunsTheDecodedInstruction :
    ∃ s : State, s.halted = false ∧ s.pc.toNat + 1 < 0x1000 ∧ s.pc = 0xFFE ∧
      decode [Memory.read s.mem s.pc.toNat, Memory.read s.mem (s.pc.toNat + 1)] = .ok (.ldImm 0 1, []) :=
  ⟨State.placeWord { State.reset with pc := 0xFFE } 0x6001, by decide⟩

/-- Also of StepIsOneAdmittedSchedule and TimersCountDownToZero. -/
theorem witness_BoundaryIsTicksThenInputs : State.reset.halted = false := by decide

theorem witness_FetchPastMemoryHalts :
    ∃ s t : State, s.halted = false ∧ t.halted = false ∧ s.pc.toNat = 0x0FFF ∧ t.pc.toNat = 0x10FE :=
  ⟨{ State.reset with pc := 0xFFF }, { State.reset with pc := 0x10FE }, by decide⟩

/-- A halted block (V16). -/
def halted : State := State.raiseFatal State.reset .stackUnderflow (some 0x00EE) none

theorem witness_HaltedBlockIgnoresStepAndTick : halted.halted = true := by decide

/-- One step halts in the fetch, the other in RET. -/
theorem witness_FatalStepChangesNothingElse :
    (∃ s t, s.halted = false ∧ 0x1000 ≤ s.pc.toNat + 1 ∧ step s = .next t ∧ t.halted = true) ∧
    ∃ s t, s.halted = false ∧ s.pc.toNat + 1 < 0x1000 ∧ step s = .next t ∧ t.halted = true :=
  ⟨⟨{ State.reset with pc := 0xFFF }, _, rfl, by decide, rfl, rfl⟩,
    ⟨State.reset.placeWord 0x00EE, _, rfl, by decide, rfl, rfl⟩⟩

/-- Every fatal condition at its boundary. -/
theorem witness_FatalConditions_fatal :
    fatalCause { State.reset with sp := 16 } (.call 0) = some (.stackOverflow, none) ∧
    fatalCause State.reset .ret = some (.stackUnderflow, none) ∧
    fatalCause { State.reset with i := 0xFFF } (.drw 0 0 2) = some (.memoryOutOfBounds, some 0x1000) ∧
    fatalCause { State.reset with i := 0xFFFF } (.ldVxMem 0) = some (.memoryOutOfBounds, some 0xFFFF) ∧
    fatalCause { State.reset with i := 0xFFE } (.ldB 0) = some (.memoryOutOfBounds, some 0x1000) ∧
    fatalCause { State.reset with i := 0x04E } (.ldB 0) = some (.fontRegionWrite, some 0x050) ∧
    fatalCause { State.reset with i := 0x09F } (.ldMemVx 0) = some (.fontRegionWrite, some 0x09F) ∧
    fatalCause { State.reset with i := 0x1000 } (.ldMemVx 0) = some (.memoryOutOfBounds, some 0x1000) := by decide

/-- The last operands that are not fatal. -/
theorem witness_FatalConditions_none :
    fatalCause { State.reset with sp := 15 } (.call 0) = none ∧ fatalCause { State.reset with sp := 1 } .ret = none ∧
    fatalCause { State.reset with i := 0xFFF } (.drw 0 0 1) = none ∧
    fatalCause { State.reset with i := 0xFFFF } (.drw 0 0 0) = none ∧
    fatalCause { State.reset with i := 0xFF0 } (.ldVxMem 15) = none ∧
    fatalCause { State.reset with i := 0xFFD } (.ldB 0) = none ∧
    fatalCause { State.reset with i := 0x04D } (.ldB 0) = none ∧
    fatalCause { State.reset with i := 0x0A0 } (.ldMemVx 15) = none ∧
    fatalCause { State.reset with i := 0x050, fontWritePolicy := .write } (.ldMemVx 15) = none := by decide

theorem witness_StackFaultsRecordTheInstruction :
    (∃ s : State, s.sp.val = 16) ∧ ∃ s : State, s.sp.val = 0 :=
  ⟨⟨{ State.reset with sp := 16 }, by decide⟩, State.reset, by decide⟩

/-- A state at the largest PC meets the invariant and has a next state; also of InvariantIsKeptAlongEverySchedule, with
the schedule of one tick. -/
theorem witness_InvariantIsKeptByEveryStep :
    ∃ s t u : State, Machine.Inv s ∧ step s = .next t ∧ runSchedule defaultParams [.tick] s = .next u ∧ s.pc = 0x10FE :=
  ⟨{ State.reset with pc := 0x10FE }, _, _,
    ⟨by decide, rfl, fun _ h => (by cases h), by decide, by decide⟩, rfl, rfl, rfl⟩

theorem witness_FontTableIsImmutableUnderFaultPolicy :
    ∃ s t : State, s.fontWritePolicy = .fault ∧ step s = .next t ∧ 0x050 ≤ 0x09F := ⟨State.reset, _, rfl, rfl, by decide⟩

/-- Also of OnlyNamedRegistersAreWritten, MemoryChangesOnlyAtTheStoredBytes, PcFollowsTheUpdateTable,
InputsReachOnlyThePollingInstructions and SoundTimerIsNeverRead. -/
theorem witness_OnlyWritersChangeAPart :
    ∃ s t : State, exec .cls s = .next t ∧ mayChange .registers .cls = false ∧ writesRegister 3 .cls = false ∧
      fatalCause s .cls = none ∧ (∀ x, Instr.cls ≠ .skp x) ∧ (∀ x, Instr.cls ≠ .sknp x) ∧ (∀ x, Instr.cls ≠ .ldVxK x) ∧
      (∀ x nn, Instr.cls ≠ .rnd x nn) ∧ ∀ x, Instr.cls ≠ .ldStVx x :=
  ⟨State.reset, _, rfl, rfl, rfl, rfl, by simp⟩

theorem witness_SoundTimerIsNeverRead_FX18 :
    ∃ (s t : State) (i : Instr), (∃ x, i = .ldStVx x) ∧ exec i s = .next t := ⟨State.reset, _, .ldStVx 3, ⟨3, rfl⟩, rfl⟩

theorem witness_HaltLastsUntilReset :
    ∃ ts : List Transaction, halted.halted = true ∧ ts ≠ [] ∧ ∀ rom, Transaction.reset rom ∉ ts :=
  ⟨[.tick, .step (keys 0), .quit], by decide, by simp, by simp⟩

/-- The ranges a dump may store to, at their ends: below the font, above it to the top of memory, and in it under policy
`write`; also of RegisterDumpStoresThroughVx, DumpThenLoadRestoresRegisters and RegisterLoadLoadsThroughVx. -/
theorem witness_StoredWordIsFetchedNext :
    ∃ s t u : State,
      (s.effective 0 + (15 : Reg).val + 1 = 0x050 ∧ s.fontWritePolicy = .fault) ∧
      (0x0A0 ≤ t.effective 0 ∧ t.effective 0 + (15 : Reg).val + 1 = 0x1000) ∧
      (u.fontWritePolicy = .write ∧ u.effective 0 = 0x09F) ∧ 1 ≤ (15 : Reg).val :=
  ⟨{ State.reset with i := 0x040 }, { State.reset with i := 0xFF0 },
    { State.reset with i := 0x09F, fontWritePolicy := .write }, by decide⟩

/-- A state that finds the dump: the one it left, with PC at I. -/
theorem witness_StoredWordIsFetchedNext_later :
    ∃ s t u : State, exec (.ldMemVx 1) s = .next t ∧ u.mem = t.mem ∧ u.i = t.i ∧ u.pc = s.i :=
  ⟨{ State.reset with i := 0x300 }, _, { State.reset with i := 0x300, pc := 0x300 }, rfl, rfl, rfl, rfl⟩

theorem witness_TickDecrementsBothTimers : halted.halted = true ∧ State.reset.halted = false := by decide

theorem witness_ResetBuildsTheDocumentedState :
    ∃ rom : List Byte, rom.length ≤ 3584 ∧ rom.length = 3584 := 
  ⟨List.replicate 3584 0, Nat.le_of_eq List.length_replicate, List.length_replicate⟩

theorem witness_OversizeRomIsRejected : ∃ rom : List Byte, 3584 < rom.length := 
  ⟨List.replicate 3585 0, List.length_replicate ▸ Nat.lt_succ_self 3584⟩

theorem witness_EndOfRunStatesStand :
    runEnd (State.reset.placeWord 0x1200) = some .final ∧ runEnd (State.reset.placeWord 0xF10A) = some .waiting := by
  decide

/-- An end state that is neither: the halted one. -/
theorem test_run_end_faulted : runEnd halted = some .faulted := by decide

theorem witness_RandomByteIsMasked : (0x0F : Byte).getLsbD 4 = false := by decide

theorem witness_BcdDigitsAreStored :
    ∃ s t u : State,
      (s.effective 0 + 3 = 0x050 ∧ s.fontWritePolicy = .fault) ∧ (0x0A0 ≤ t.effective 0 ∧ t.effective 0 + 3 = 0x1000) ∧
      u.fontWritePolicy = .write ∧ u.effective 0 = 0x04E :=
  ⟨{ State.reset with i := 0x04D }, { State.reset with i := 0xFFD },
    { State.reset with i := 0x04E, fontWritePolicy := .write }, by decide⟩

/-- Also of CallThenReturnContinuesAfterTheCall, whose second state is the one after the call. -/
theorem witness_CallPushesTheNextAddress : ∃ s : State, s.sp.val < 16 ∧ s.sp.val = 15 :=
  ⟨{ State.reset with sp := 15 }, by decide⟩

theorem witness_CallThenReturnContinuesAfterTheCall :
    ∃ s t u : State, s.sp.val < 16 ∧ exec (.call 0x300) s = .next t ∧ u.sp = t.sp ∧
      ∀ k : Fin 16, k.val = s.sp.val → u.stack[k] = t.stack[k] :=
  ⟨State.reset, _, { State.reset with sp := 1, stack := (Vector.replicate 16 0).set 0 0x202 }, by decide, rfl, rfl, by decide⟩

theorem witness_ReturnPopsTheStack :
    ∃ s t : State, (0 < s.sp.val ∧ s.sp.val = 1) ∧ (0 < t.sp.val ∧ t.sp.val = 16 ∧ ∃ k : Fin 16, k.val + 1 = t.sp.val) :=
  ⟨{ State.reset with sp := 1 }, { State.reset with sp := 16 }, by decide, by decide, by decide, 15, by decide⟩

/-- Also of DrawTwiceRestoresTheScreen. -/
theorem witness_DrawXorsTheSprite :
    (0 : Reg) ≠ vf ∧ (14 : Reg) ≠ vf ∧ ∃ s t : State, ((0 : Fin 16).val = 0 ∧ s.effective 0 = 0xFFFF) ∧
      t.effective 0 + (15 : Fin 16).val = 0x1000 :=
  ⟨by decide, by decide, { State.reset with i := 0xFFFF }, { State.reset with i := 0xFF1 }, by decide⟩

theorem witness_KeySkipsPollTheKey :
    ∃ s t : State, (s.reg 1).toNat ≤ 15 ∧ s.reg 1 = 15 ∧ 15 < (t.reg 1).toNat ∧ t.reg 1 = 16 :=
  ⟨start [(1, 15)], start [(1, 16)], by decide⟩

theorem witness_WaitForKeyTakesADownKey :
    ∃ s t : State, s.inputs.keys = 0 ∧ t.inputs.keys ≠ 0 ∧ t.inputs.keys.getLsbD 15 = true :=
  ⟨State.reset, { State.reset with inputs := keys 0x8000 }, by decide⟩


end Sys2Proof.Tests
end

section
/-! SUPPORT. What every instruction does, once for all of them: it is fatal exactly on `fatalCause`, and otherwise it
completes: it writes only the parts of `mayChange` and the registers of `writesRegister`, and goes on at `pcAfter`. -/

namespace Sys2Proof.Machine

/-! ## Fatal causes and failing checks -/

/-- A failing check with its address as a fatal cause. -/
def asCause (failing : FaultCode × Nat) : FaultCode × Option Nat := (failing.1, some failing.2)

theorem readCause_eq (s : State) (n : Nat) : readCause s.i.toNat n = (s.failingRead n).map asCause := by
  rw [failingRead_eq, readCause]
  split <;> rfl

theorem writeCause_eq (s : State) {n : Nat} (hn : n ≤ 16) :
    writeCause s.fontWritePolicy s.i.toNat n = (s.failingWrite n).map asCause := by
  rw [failingWrite_eq s n hn, writeCause]
  split
  · rfl
  · split <;> rfl

theorem eq_some_of_map_asCause {failing : Option (FaultCode × Nat)} {code : FaultCode} {ea : Option Nat}
    (h : failing.map asCause = some (code, ea)) : ∃ a, ea = some a ∧ failing = some (code, a) := by
  obtain ⟨⟨c, a⟩, hf, hc⟩ := Option.map_eq_some_iff.1 h
  cases hc
  exact ⟨a, rfl, hf⟩

theorem failingRead_of_readCause {s : State} {n : Nat} {code : FaultCode} {ea : Option Nat}
    (h : readCause s.i.toNat n = some (code, ea)) : ∃ a, ea = some a ∧ s.failingRead n = some (code, a) :=
  eq_some_of_map_asCause (readCause_eq s n ▸ h)

theorem failingRead_of_readCause_none {s : State} {n : Nat} (h : readCause s.i.toNat n = none) :
    s.failingRead n = none :=
  Option.map_eq_none_iff.1 (readCause_eq s n ▸ h)

theorem failingWrite_of_writeCause {s : State} {n : Nat} (hn : n ≤ 16) {code : FaultCode} {ea : Option Nat}
    (h : writeCause s.fontWritePolicy s.i.toNat n = some (code, ea)) :
    ∃ a, ea = some a ∧ s.failingWrite n = some (code, a) :=
  eq_some_of_map_asCause (writeCause_eq s hn ▸ h)

theorem failingWrite_of_writeCause_none {s : State} {n : Nat} (hn : n ≤ 16)
    (h : writeCause s.fontWritePolicy s.i.toNat n = none) : s.failingWrite n = none :=
  Option.map_eq_none_iff.1 (writeCause_eq s hn ▸ h)

theorem fatalCause_call (s : State) (nnn : Imm12) :
    fatalCause s (.call nnn) = if s.sp.val = 16 then some (.stackOverflow, none) else none := rfl

theorem fatalCause_ret (s : State) :
    fatalCause s .ret = if s.sp.val = 0 then some (.stackUnderflow, none) else none := rfl

theorem sp_lt_of_fatalCause_call {s : State} {nnn : Imm12} (h : fatalCause s (.call nnn) = none) : s.sp.val < 16 := by
  rw [fatalCause_call, ite_eq_right_iff] at h
  have : s.sp.val ≠ 16 := fun hsp => nomatch h hsp
  omega

theorem sp_pos_of_fatalCause_ret {s : State} (h : fatalCause s .ret = none) : 0 < s.sp.val := by
  rw [fatalCause_ret, ite_eq_right_iff] at h
  exact Nat.pos_of_ne_zero fun hsp => nomatch h hsp

/-- An instruction with a fatal cause raises it with its own word and has no other effect (R95, R208). -/
theorem exec_fatal {i : Instr} {s : State} {code : FaultCode} {ea : Option Nat}
    (h : fatalCause s i = some (code, ea)) : exec i s = .next (s.raiseFatal code (some (encode i)) ea) := by
  cases i with
  | call nnn =>
    obtain ⟨hsp, hc⟩ := Option.ite_none_right_eq_some.1 ((fatalCause_call s nnn).symm.trans h)
    cases hc
    exact exec_call_overflow nnn hsp
  | ret =>
    obtain ⟨hsp, hc⟩ := Option.ite_none_right_eq_some.1 ((fatalCause_ret s).symm.trans h)
    cases hc
    exact exec_ret_underflow hsp
  | drw x y n =>
    obtain ⟨a, rfl, hf⟩ := failingRead_of_readCause h
    exact exec_drw_fatal x y hf
  | ldVxMem x =>
    obtain ⟨a, rfl, hf⟩ := failingRead_of_readCause h
    exact exec_ldVxMem_fatal hf
  | ldB x =>
    obtain ⟨a, rfl, hf⟩ := failingWrite_of_writeCause (by omega) h
    exact exec_ldB_fatal hf
  | ldMemVx x =>
    obtain ⟨a, rfl, hf⟩ := failingWrite_of_writeCause (by omega) h
    exact exec_ldMemVx_fatal hf
  | _ => cases h

/-! ## What a completed instruction leaves unchanged -/

/-- `t` with every part that `i` may not change (R22, R27, R28, R30, R31, R36, R60) put back to what it is in `s`, and
with the status, the parameter, the ports and the diagnostics of `s`. -/
def putBack (i : Instr) (s t : State) : State :=
  { s with
    v := bif mayChange .registers i then t.v else s.v
    i := bif mayChange .index i then t.i else s.i
    pc := t.pc
    sp := bif mayChange .stack i then t.sp else s.sp
    stack := bif mayChange .stack i then t.stack else s.stack
    dt := bif mayChange .delay i then t.dt else s.dt
    st := bif mayChange .sound i then t.st else s.st
    mem := bif mayChange .memory i then t.mem else s.mem
    fb := bif mayChange .screen i then t.fb else s.fb
    randDraws := bif mayChange .draws i then t.randDraws else s.randDraws }

theorem unchanged_putBack {i : Instr} {p : Part} (s t : State) (h : mayChange p i = false) :
    Unchanged s (putBack i s t) p := by
  cases p <;> simp [Unchanged, putBack, State.reg, h]

/-- From `s` the instruction `i` completes in `t`: everything it may not write is as before, and PC follows R92. -/
structure Completes (i : Instr) (s t : State) : Prop where
  frame : t = putBack i s t
  registers : ∀ r, writesRegister r i = false → t.reg r = s.reg r
  pc : t.pc = pcAfter s i

theorem reg_setReg_of_ne {s : State} {x r : Reg} {b : Byte} (h : (r == x) = false) :
    (s.setReg x b).reg r = s.reg r := by
  rw [reg_setReg, if_neg (by simpa using h)]

theorem reg_setResultAndFlag_of_ne {s : State} {x r : Reg} {b : Byte} {c : Bool}
    (h : (r == x || r == vf) = false) : (s.setResultAndFlag x b c).reg r = s.reg r := by
  obtain ⟨hx, hf⟩ : r ≠ x ∧ r ≠ vf := by simpa using h
  rw [reg_setResultAndFlag, if_neg hf, if_neg hx]

theorem jpV0_target (b : Byte) (nnn : Imm12) :
    zext16 b + immAddress nnn = BitVec.ofNat 16 (b.toNat + nnn.toNat) := by
  apply BitVec.eq_of_toNat_eq
  rw [toNat_jpV0, BitVec.toNat_ofNat]
  omega

/-- RET goes on at the entry below SP (R111). -/
theorem pcAfter_ret (s : State) : pcAfter s .ret = s.stack[s.sp.val - 1]'(by omega) := by
  change s.stack.toList.getD (s.sp.val - 1) 0 = _
  have hlt : s.sp.val - 1 < s.stack.toList.length := by rw [Vector.length_toList]; omega
  rw [List.getD_eq_getElem _ _ hlt, Vector.getElem_toList]

theorem reg_withPc (s : State) (pc : Word) (r : Reg) : State.reg { s with pc := pc } r = s.reg r := rfl

/-- FX65 loads V0..Vx and no other register (R165). -/
theorem completes_setRegsThrough (s : State) (x : Reg) (f : Nat → Byte) :
    Completes (.ldVxMem x) s { s.setRegsThrough x f with pc := s.pc + 2 } where
  frame := by
    have hreg : mayChange .registers (.ldVxMem x) = true := rfl
    simp [putBack, hreg]
  registers r hr := by
    have hlt : ¬r.val ≤ x.val := by simpa [writesRegister] using hr
    rw [reg_withPc (s.setRegsThrough x f), reg_setRegsThrough, if_neg hlt]
  pc := rfl

/-- FX0A completes in either case: it waits, or it takes a drawn key (R182). -/
theorem exec_ldVxK_completes (x : Reg) (s : State) :
    ∃ t, exec (.ldVxK x) s = .next t ∧ Completes (.ldVxK x) s t := by
  cases hk : drawnKey s.inputs with
  | none => exact ⟨s, exec_ldVxK_wait x hk, rfl, fun _ _ => rfl, (if_pos (drawnKey_none.1 hk)).symm⟩
  | some k =>
    have hkeys : ¬s.inputs.keys = 0 := fun h => by simp [drawnKey_none.2 h] at hk
    exact ⟨_, exec_ldVxK_key x hk, rfl, fun _ => reg_setReg_of_ne, (if_neg hkeys).symm⟩

/-- An instruction without a fatal cause completes. -/
theorem exec_completes {i : Instr} {s : State} (h : fatalCause s i = none) :
    ∃ t, exec i s = .next t ∧ Completes i s t := by
  cases i with
  | sys nnn => exact ⟨_, exec_sys s nnn, rfl, fun _ _ => rfl, rfl⟩
  | cls => exact ⟨_, exec_cls s, rfl, fun _ _ => rfl, rfl⟩
  | ret => exact ⟨_, exec_ret (sp_pos_of_fatalCause_ret h), rfl, fun _ _ => rfl, (pcAfter_ret s).symm⟩
  | jp nnn => exact ⟨_, exec_jp s nnn, rfl, fun _ _ => rfl, immAddress_eq nnn⟩
  | call nnn => exact ⟨_, exec_call nnn (sp_lt_of_fatalCause_call h), rfl, fun _ _ => rfl, immAddress_eq nnn⟩
  | seImm x nn => exact ⟨_, exec_seImm s x nn, rfl, fun _ _ => rfl, rfl⟩
  | sneImm x nn => exact ⟨_, exec_sneImm s x nn, rfl, fun _ _ => rfl, rfl⟩
  | seReg x y => exact ⟨_, exec_seReg s x y, rfl, fun _ _ => rfl, rfl⟩
  | ldImm x nn => exact ⟨_, exec_ldImm s x nn, rfl, fun _ => reg_setReg_of_ne, rfl⟩
  | addImm x nn => exact ⟨_, exec_addImm s x nn, rfl, fun _ => reg_setReg_of_ne, rfl⟩
  | ldReg x y => exact ⟨_, exec_ldReg s x y, rfl, fun _ => reg_setReg_of_ne, rfl⟩
  | orReg x y => exact ⟨_, exec_orReg s x y, rfl, fun _ => reg_setReg_of_ne, rfl⟩
  | andReg x y => exact ⟨_, exec_andReg s x y, rfl, fun _ => reg_setReg_of_ne, rfl⟩
  | xorReg x y => exact ⟨_, exec_xorReg s x y, rfl, fun _ => reg_setReg_of_ne, rfl⟩
  | addReg x y => exact ⟨_, exec_addReg s x y, rfl, fun _ => reg_setResultAndFlag_of_ne, rfl⟩
  | subReg x y => exact ⟨_, exec_subReg s x y, rfl, fun _ => reg_setResultAndFlag_of_ne, rfl⟩
  | shr x y => exact ⟨_, exec_shr s x y, rfl, fun _ => reg_setResultAndFlag_of_ne, rfl⟩
  | subnReg x y => exact ⟨_, exec_subnReg s x y, rfl, fun _ => reg_setResultAndFlag_of_ne, rfl⟩
  | shl x y => exact ⟨_, exec_shl s x y, rfl, fun _ => reg_setResultAndFlag_of_ne, rfl⟩
  | sneReg x y => exact ⟨_, exec_sneReg s x y, rfl, fun _ _ => rfl, rfl⟩
  | ldI nnn => exact ⟨_, exec_ldI s nnn, rfl, fun _ _ => rfl, rfl⟩
  | jpV0 nnn => exact ⟨_, exec_jpV0 s nnn, rfl, fun _ _ => rfl, jpV0_target (s.reg 0) nnn⟩
  | rnd x nn => exact ⟨_, exec_rnd s x nn, rfl, fun _ => reg_setReg_of_ne, rfl⟩
  | drw x y n => exact ⟨_, exec_drw x y (failingRead_of_readCause_none h), rfl, fun _ => reg_setReg_of_ne, rfl⟩
  | skp x => exact ⟨_, exec_skp s x, rfl, fun _ _ => rfl, rfl⟩
  | sknp x => exact ⟨_, exec_sknp s x, rfl, fun _ _ => rfl, rfl⟩
  | ldVxDt x => exact ⟨_, exec_ldVxDt s x, rfl, fun _ => reg_setReg_of_ne, rfl⟩
  | ldVxK x => exact exec_ldVxK_completes x s
  | ldDtVx x => exact ⟨_, exec_ldDtVx s x, rfl, fun _ _ => rfl, rfl⟩
  | ldStVx x => exact ⟨_, exec_ldStVx s x, rfl, fun _ _ => rfl, rfl⟩
  | addI x => exact ⟨_, exec_addI s x, rfl, fun _ _ => rfl, rfl⟩
  | ldF x => exact ⟨_, exec_ldF s x, rfl, fun _ _ => rfl, rfl⟩
  | ldB x => exact ⟨_, exec_ldB x (failingWrite_of_writeCause_none (by omega) h), rfl, fun _ _ => rfl, rfl⟩
  | ldMemVx x => exact ⟨_, exec_ldMemVx (failingWrite_of_writeCause_none (by omega) h), rfl, fun _ _ => rfl, rfl⟩
  | ldVxMem x =>
    exact ⟨_, exec_ldVxMem (failingRead_of_readCause_none h), completes_setRegsThrough s x s.byteAtI⟩

/-- Everything an instruction can do: raise its fatal cause, or complete. -/
theorem exec_cases {i : Instr} {s t : State} (h : exec i s = .next t) :
    (∃ code ea, fatalCause s i = some (code, ea) ∧ t = s.raiseFatal code (some (encode i)) ea) ∨
    (fatalCause s i = none ∧ Completes i s t) := by
  cases hc : fatalCause s i with
  | some cause =>
    rw [exec_fatal hc] at h
    cases h
    exact .inl ⟨_, _, rfl, rfl⟩
  | none =>
    obtain ⟨u, hu, hcomp⟩ := exec_completes hc
    rw [hu] at h
    cases h
    exact .inr ⟨rfl, hcomp⟩

theorem unchanged_raiseFatal (s : State) (code : FaultCode) (w : Option Word) (ea : Option Nat) (p : Part) :
    Unchanged s (s.raiseFatal code w ea) p := by
  cases p <;> simp [Unchanged]

theorem Completes.unchanged {i : Instr} {s t : State} {p : Part} (h : Completes i s t) (hp : mayChange p i = false) :
    Unchanged s t p := by
  rw [h.frame]
  exact unchanged_putBack s t hp

/-- A completed instruction touches neither the status (R208) nor the parameter, the ports, the boundary counter or the
diagnostics. -/
theorem Completes.status {i : Instr} {s t : State} (h : Completes i s t) :
    t.halted = s.halted ∧ t.fault = s.fault ∧ t.fontWritePolicy = s.fontWritePolicy ∧ t.inputs = s.inputs ∧
      t.samples = s.samples ∧ t.diag = s.diag := by
  rw [h.frame]
  exact ⟨rfl, rfl, rfl, rfl, rfl, rfl⟩

/-- Settles O22: by the two ways an instruction can end; a fatal one changes no part, a completed one only those that it
may change. -/
theorem onlyWritersChangeAPart : Obligations.OnlyWritersChangeAPart := by
  intro i s t h
  obtain ⟨code, ea, -, rfl⟩ | ⟨-, hcomp⟩ := exec_cases h
  · exact ⟨fun p _ => unchanged_raiseFatal s code _ ea p, rfl, rfl, rfl, rfl⟩
  · obtain ⟨-, -, hmodel⟩ := hcomp.status
    exact ⟨fun _ => hcomp.unchanged, hmodel⟩

/-- Settles O23: by the two ways an instruction can end. -/
theorem onlyNamedRegistersAreWritten : Obligations.OnlyNamedRegistersAreWritten := by
  intro i s t r h hr
  obtain ⟨code, ea, -, rfl⟩ | ⟨-, hcomp⟩ := exec_cases h
  · rfl
  · exact hcomp.registers r hr

end Sys2Proof.Machine
end

section
/-! SUPPORT. Answers in sequence: the next state of one goes on to what follows, and anything else stops. -/

namespace Sys2Proof.Machine

/-- `follow` at the next state of `answer`; an answer without a next state stands. -/
def thenRun (answer : Result) (follow : State → Result) : Result :=
  match answer with
  | .next s => follow s
  | .fault f => .fault f
  | .refused r => .refused r

theorem thenRun_next (s : State) (follow : State → Result) : thenRun (.next s) follow = follow s := rfl

theorem thenRun_eq_next {answer : Result} {follow : State → Result} {t : State} :
    thenRun answer follow = .next t ↔ ∃ s, answer = .next s ∧ follow s = .next t := by
  cases answer <;> simp [thenRun]

theorem thenRun_self (answer : Result) : thenRun answer .next = answer := by
  cases answer <;> rfl

end Sys2Proof.Machine
end

section
/-! SUPPORT. Another value of ST before an instruction: every meaning is the same but for ST (10_state.md R31). -/

namespace Sys2Proof.Machine

/-- `s` with the value `b` in ST. -/
def State.withSound (s : State) (b : Byte) : State := { s with st := b }

/-- The answer with the value `b` in ST of its next state. -/
def withSoundAnswer (b : Byte) (answer : Result) : Result := thenRun answer fun t => .next (t.withSound b)

theorem guarded_withSound {s : State} {b : Byte} (i : Instr) (failing : Option (FaultCode × Nat))
    {effect effect' : Result} (h : effect' = withSoundAnswer b effect) :
    (s.withSound b).guarded i failing effect' = withSoundAnswer b (s.guarded i failing effect) := by
  subst h
  cases failing <;> rfl

/-- The checks, the operands and the canvas do not read ST, so each guarded effect is the same but for ST. -/
theorem exec_withSound {i : Instr} (s : State) (b : Byte) (h : ∀ x, i ≠ .ldStVx x) :
    exec i (s.withSound b) = withSoundAnswer b (exec i s) := by
  cases i with
  | call nnn =>
    by_cases hsp : s.sp.val < 16
    · rw [exec_call nnn hsp, exec_call nnn (s := s.withSound b) hsp]; rfl
    · have hfull : s.sp.val = 16 := by omega
      rw [exec_call_overflow nnn hfull, exec_call_overflow nnn (s := s.withSound b) hfull]; rfl
  | ret =>
    by_cases hsp : s.sp.val = 0
    · rw [exec_ret_underflow hsp, exec_ret_underflow (s := s.withSound b) hsp]; rfl
    · have hpos : 0 < s.sp.val := by omega
      rw [exec_ret hpos, exec_ret (s := s.withSound b) hpos]; rfl
  | drw x y n => exact guarded_withSound _ (s.failingRead n.val) rfl
  | ldB x => exact guarded_withSound _ (s.failingWrite 3) rfl
  | ldMemVx x => exact guarded_withSound _ (s.failingWrite (x.val + 1)) rfl
  | ldVxMem x => exact guarded_withSound _ (s.failingRead (x.val + 1)) rfl
  | ldVxK x =>
    cases hk : drawnKey s.inputs with
    | none => rw [exec_ldVxK_wait x hk, exec_ldVxK_wait (s := s.withSound b) x hk]; rfl
    | some k => rw [exec_ldVxK_key x hk, exec_ldVxK_key (s := s.withSound b) x hk]; rfl
  | ldStVx x => exact absurd rfl (h x)
  | _ => rfl

/-- FX18 overwrites ST, so its earlier value is lost (R185). -/
theorem exec_ldStVx_withSound (x : Reg) (s : State) (b : Byte) :
    exec (.ldStVx x) (s.withSound b) = exec (.ldStVx x) s := rfl

/-- Settles O30: FX18 overwrites ST, and every other meaning carries it along. -/
theorem soundTimerIsNeverRead : Obligations.SoundTimerIsNeverRead := by
  intro i s t b h
  constructor
  · intro hne
    rw [← State.withSound, exec_withSound s b hne, h]
    rfl
  · rintro ⟨x, rfl⟩
    exact (exec_ldStVx_withSound x s b).trans h

end Sys2Proof.Machine
end

section
/-! SUPPORT. Schedules: what leading ticks and each other transaction do, and the one induction over a schedule. -/

namespace Sys2Proof.Machine

/-! ## The step boundary (R36, R37, R214) -/

/-- Settles O10: the closed form of the drawn number of ticks, and the sampled inputs. -/
theorem boundaryIsTicksThenInputs : Obligations.BoundaryIsTicksThenInputs := by
  intro s h
  refine ⟨Config.ticksBefore s.samples, sampledInputs s, ?_⟩
  rw [ticks_eq _ h]
  rfl

/-! ## Running a schedule -/

/-- A transaction that is not `quit` hands its next state to the rest of the schedule. -/
theorem runSchedule_cons (p : Params) (tr : Transaction) (ts : List Transaction) (s : State) (hq : tr ≠ .quit) :
    runSchedule p (tr :: ts) s = thenRun (transact p tr s) (runSchedule p ts) := by
  cases tr with
  | quit => exact absurd rfl hq
  | _ => rfl

/-- The induction over a schedule: what every transaction keeps, every schedule keeps. -/
theorem runSchedule_keeps {p : Params} {P : State → Prop}
    (keeps : ∀ (tr : Transaction) (s t : State), P s → transact p tr s = .next t → P t) :
    ∀ (ts : List Transaction) (s t : State), P s → runSchedule p ts s = .next t → P t := by
  intro ts
  induction ts with
  | nil => rintro s t hs ⟨⟩; exact hs
  | cons tr ts ih =>
    intro s t hs h
    by_cases hq : tr = .quit
    · subst hq
      cases h
      exact hs
    · obtain ⟨u, hu, hrest⟩ := thenRun_eq_next.1 (runSchedule_cons p tr ts s hq ▸ h)
      exact ih u t (keeps tr s u hs hu) hrest

/-- Leading ticks happen one after the other (R213). -/
theorem runSchedule_ticks (p : Params) (k : Nat) (ts : List Transaction) (s : State) :
    runSchedule p (List.replicate k .tick ++ ts) s = runSchedule p ts (tick^[k] s) := by
  induction k generalizing s with
  | zero => rfl
  | succ k ih => exact ih (tick s)

/-- The schedule of one step transaction. -/
theorem runSchedule_step (p : Params) (inp : Inputs) (s : State) :
    runSchedule p [.step inp] s = stepWith inp s :=
  (runSchedule_cons p (.step inp) [] s nofun).trans (thenRun_self (stepWith inp s))

/-- Settles O11: the ticks and the inputs of the boundary before the step. -/
theorem stepIsOneAdmittedSchedule : Obligations.StepIsOneAdmittedSchedule := by
  intro p s h
  obtain ⟨k, inp, hb⟩ := boundaryIsTicksThenInputs s h
  refine ⟨k, inp, ?_⟩
  calc step s = cycle { tick^[k] s with inputs := inp, samples := s.samples + 1 } := by rw [step_running h, hb]
    _ = stepWith inp (tick^[k] { s with samples := s.samples + 1 }) := by
      rw [ticks_eq k h, ticks_eq k (by exact h), stepWith_running inp (by exact h)]
    _ = runSchedule p (List.replicate k .tick ++ [.step inp]) { s with samples := s.samples + 1 } := by
      rw [runSchedule_ticks, runSchedule_step]

end Sys2Proof.Machine
end

section
/-! SUPPORT. What `reset(rom)` builds (70_reset_and_hazards.md R230, R231), as a load and as a transaction. -/

namespace Sys2Proof.Machine

/-- The state that `reset(rom)` builds, with the model's counters and events given. -/
def builtState (p : Params) (rom : List Byte) (samples randDraws : Nat) (diag : List DiagEvent) : State :=
  { State.reset with
    mem := loadedMemory p rom
    fontWritePolicy := p.fontWritePolicy
    samples := samples
    randDraws := randDraws
    diag := diag }

theorem loadRom_eq (p : Params) {rom : List Byte} (h : rom.length ≤ 3584) :
    loadRom p rom = .next (builtState p rom 0 0 []) := if_neg (Nat.not_lt.2 h)

theorem loadRom_oversize (p : Params) {rom : List Byte} (h : 3584 < rom.length) :
    loadRom p rom = .fault (.romTooLarge rom.length) := if_pos h

theorem transact_reset (p : Params) {rom : List Byte} (s : State) (h : rom.length ≤ 3584) :
    transact p (.reset rom) s = .next (builtState p rom s.samples s.randDraws s.diag) := by
  simp only [transact, resetKeeping, loadRom_eq p h]
  rfl

theorem transact_reset_oversize (p : Params) {rom : List Byte} (s : State) (h : 3584 < rom.length) :
    transact p (.reset rom) s = .fault (.romTooLarge rom.length) := by
  simp only [transact, resetKeeping, loadRom_oversize p h]

/-- The ROM lies over the font, the font over zeros; they do not meet (R230). -/
theorem read_loadedMemory (p : Params) (rom : List Byte) (a : Nat) :
    Memory.read (loadedMemory p rom) a =
      if 0x200 ≤ a ∧ a < 0x200 + rom.length then rom.getD (a - 0x200) 0
      else if 0x050 ≤ a ∧ a ≤ 0x09F then p.fontData.toList.getD (a - 0x050) 0
      else 0 := by
  have hfont : (0x050 ≤ a ∧ a < 0x050 + p.fontData.toList.length) ↔ (0x050 ≤ a ∧ a ≤ 0x09F) := by
    rw [Vector.length_toList]; omega
  simp only [loadedMemory, Config.fontBase, Config.progBase, read_writeList, hfont, read_nil]
  split
  · rfl
  · split
    · rfl
    · exact background_outside_font (by omega)

theorem loadedMemory_wf (p : Params) {rom : List Byte} (h : rom.length ≤ 3584) : Memory.wf (loadedMemory p rom) := by
  have hfont : Memory.wf (Memory.writeList [] 0x050 p.fontData.toList) :=
    writeList_wf ⟨.nil, nofun⟩ (by rw [Vector.length_toList]; omega)
  exact writeList_wf hfont (by simp only [Config.progBase]; omega)

theorem builtByReset_builtState (p : Params) (rom : List Byte) (samples randDraws : Nat) (diag : List DiagEvent) :
    BuiltByReset p rom (builtState p rom samples randDraws diag) where
  registers r := by simp [builtState, State.reset, State.reg]
  index := rfl
  pc := rfl
  sp := rfl
  stack k := by simp [builtState, State.reset]
  timers := ⟨rfl, rfl⟩
  memory a _ := read_loadedMemory p rom a
  screen X Y _ _ := by simp [builtState, State.reset, Framebuffer.pixel]
  status := ⟨rfl, rfl⟩
  policy := rfl
  inputs := rfl

/-- Settles O34: the built state, as the answer of the load and of the transaction. -/
theorem resetBuildsTheDocumentedState : Obligations.ResetBuildsTheDocumentedState := by
  intro p rom h
  refine ⟨⟨_, loadRom_eq p h, builtByReset_builtState .., rfl, rfl, rfl⟩, fun s => ?_⟩
  refine ⟨_, transact_reset p s h, builtByReset_builtState .., rfl, rfl, rfl, fun ts => ?_⟩
  rw [runSchedule_cons p (.reset rom) ts s nofun, transact_reset p s h, thenRun_next]

end Sys2Proof.Machine
end

section
/-! SUPPORT. The invariant: what a fatal condition records, where PC and the return addresses can go, and what a store
leaves; then every instruction, every step and every transaction keeps it. -/

namespace Sys2Proof.Machine

/-! ## What a fatal condition records (R201 to R205) -/

theorem recordOk_readCause {pc : Word} {a n : Nat} {code : FaultCode} {ea : Option Nat} (w : Option Word)
    (h : readCause a n = some (code, ea)) : RecordOk pc { code := code, word := w, addr := pc, ea := ea } := by
  obtain ⟨-, hc⟩ := Option.ite_none_right_eq_some.1 h
  cases hc
  exact ⟨rfl, _, rfl, le_max_right a 0x1000⟩

theorem recordOk_writeCause {pc : Word} {policy : Config.FontWritePolicy} {a n : Nat} {code : FaultCode}
    {ea : Option Nat} (w : Word) (h : writeCause policy a n = some (code, ea)) :
    RecordOk pc { code := code, word := some w, addr := pc, ea := ea } := by
  unfold writeCause at h
  split at h
  · cases h
    exact ⟨rfl, _, rfl, le_max_right a 0x1000⟩
  · obtain ⟨hfont, hc⟩ := Option.ite_none_right_eq_some.1 h
    cases hc
    exact ⟨rfl, ⟨w, rfl⟩, _, rfl, le_max_right a 0x050, by omega⟩

/-- The record of an instruction's fatal cause is sound. -/
theorem recordOk_fatalCause {i : Instr} {s : State} {code : FaultCode} {ea : Option Nat}
    (h : fatalCause s i = some (code, ea)) :
    RecordOk s.pc { code := code, word := some (encode i), addr := s.pc, ea := ea } := by
  cases i with
  | call nnn =>
    obtain ⟨-, hc⟩ := Option.ite_none_right_eq_some.1 ((fatalCause_call s nnn).symm.trans h)
    cases hc
    exact ⟨rfl, ⟨nnn, rfl⟩, rfl⟩
  | ret =>
    obtain ⟨-, hc⟩ := Option.ite_none_right_eq_some.1 ((fatalCause_ret s).symm.trans h)
    cases hc
    exact ⟨rfl, rfl, rfl⟩
  | drw x y n => exact recordOk_readCause _ h
  | ldVxMem x => exact recordOk_readCause _ h
  | ldB x => exact recordOk_writeCause _ h
  | ldMemVx x => exact recordOk_writeCause _ h
  | _ => cases h

/-- A halt that changes nothing else keeps the invariant when its record is sound. -/
theorem inv_raiseFatal {s : State} {code : FaultCode} {w : Option Word} {ea : Option Nat} (hs : Inv s)
    (hr : RecordOk s.pc { code := code, word := w, addr := s.pc, ea := ea }) : Inv (s.raiseFatal code w ea) where
  memory := hs.memory
  halted_iff := rfl
  record := by rintro r ⟨⟩; exact hr
  pc_le := hs.pc_le
  stack_le := hs.stack_le

/-! ## Where PC can go (R25, R92) -/

theorem toNat_ite_le {c : Prop} [Decidable c] {a b : Word} {n : Nat} (ha : a.toNat ≤ n) (hb : b.toNat ≤ n) :
    (if c then a else b).toNat ≤ n := by
  split <;> assumption

theorem toNat_ofNat_le {k n : Nat} (h : k ≤ n) : (BitVec.ofNat 16 k).toNat ≤ n := by
  rw [BitVec.toNat_ofNat]
  exact (Nat.mod_le _ _).trans h

/-- From a PC that is fetched from, no instruction goes on beyond 0x10FE (R25). -/
theorem pcAfter_le {s : State} (i : Instr) (hpc : s.pc.toNat ≤ 0xFFE) (hstack : ∀ k : Fin 16, s.stack[k].toNat ≤ 0x1000) :
    (pcAfter s i).toNat ≤ 0x10FE := by
  have h2 : (s.pc + 2).toNat ≤ 0x10FE := advance_le (u := .next) hpc nofun
  have h4 : (s.pc + 4).toNat ≤ 0x10FE := advance_le (u := .skip true) hpc nofun
  cases i with
  | seImm x nn => exact toNat_ite_le h4 h2
  | seReg x y => exact toNat_ite_le h4 h2
  | skp x => exact toNat_ite_le h4 h2
  | sneImm x nn => exact toNat_ite_le h2 h4
  | sneReg x y => exact toNat_ite_le h2 h4
  | sknp x => exact toNat_ite_le h2 h4
  | ldVxK x => exact toNat_ite_le (by omega) h2
  | jp nnn => exact toNat_ofNat_le (by omega)
  | call nnn => exact toNat_ofNat_le (by omega)
  | jpV0 nnn => exact toNat_ofNat_le (by omega)
  | ret =>
    rw [pcAfter_ret]
    exact (hstack ⟨s.sp.val - 1, by omega⟩).trans (by omega)
  | _ => exact h2

/-! ## What the memory and the stack can become -/

theorem effective_le_of_failingWrite {s : State} {n : Nat} (hn : n ≤ 16) (h0 : 0 < n) (h : s.failingWrite n = none) :
    s.effective 0 + n ≤ 0x1000 := by
  rw [failingWrite_eq s n hn] at h
  split at h
  · cases h
  · simp only [State.effective]; omega

/-- A completed instruction leaves canonical memory: it stores inside the address space, or nothing (R60, R62). -/
theorem exec_mem_wf {i : Instr} {s t : State} (hm : Memory.wf s.mem) (hc : fatalCause s i = none)
    (h : exec i s = .next t) (hcomp : Completes i s t) : Memory.wf t.mem := by
  cases i with
  | ldB x =>
    have hw := failingWrite_of_writeCause_none (by omega) hc
    rw [exec_ldB x hw] at h
    cases h
    exact writeList_wf hm (effective_le_of_failingWrite (n := 3) (by omega) (by omega) hw)
  | ldMemVx x =>
    have hw := failingWrite_of_writeCause_none (by omega) hc
    rw [exec_ldMemVx hw] at h
    cases h
    refine writeList_wf hm ?_
    rw [regsThrough_length]
    exact effective_le_of_failingWrite (by omega) (by omega) hw
  | _ =>
    rw [hcomp.frame]
    exact hm

/-- A completed instruction pushes the address of the next instruction, or leaves every entry (R28, R113). -/
theorem exec_stack_le {i : Instr} {s t : State} (hs : ∀ k : Fin 16, s.stack[k].toNat ≤ 0x1000)
    (hpc : s.pc.toNat ≤ 0xFFE) (hc : fatalCause s i = none) (h : exec i s = .next t) (hcomp : Completes i s t) :
    ∀ k : Fin 16, t.stack[k].toNat ≤ 0x1000 := by
  intro k
  cases i with
  | call nnn =>
    rw [exec_call nnn (sp_lt_of_fatalCause_call hc)] at h
    cases h
    simp only [Fin.getElem_fin, Vector.getElem_set]
    split
    · rw [BitVec.toNat_add]; simp; omega
    · exact hs k
  | ret =>
    rw [exec_ret (sp_pos_of_fatalCause_ret hc)] at h
    cases h
    exact hs k
  | _ =>
    rw [hcomp.frame]
    exact hs k

/-! ## Every step -/

theorem exec_inv {i : Instr} {s t : State} (hs : Inv s) (hrun : s.halted = false) (hpc : s.pc.toNat ≤ 0xFFE)
    (h : exec i s = .next t) : Inv t := by
  obtain ⟨code, ea, hc, rfl⟩ | ⟨hc, hcomp⟩ := exec_cases h
  · exact inv_raiseFatal hs (recordOk_fatalCause hc)
  · obtain ⟨hhalted, hfault, -⟩ := hcomp.status
    have hnone : s.fault = none := by simpa [hrun] using hs.halted_iff
    exact
      { memory := exec_mem_wf hs.memory hc h hcomp
        halted_iff := by rw [hhalted, hfault, hs.halted_iff]
        record := by simp [hfault, hnone]
        pc_le := hcomp.pc ▸ pcAfter_le i hpc hs.stack_le
        stack_le := exec_stack_le hs.stack_le hpc hc h hcomp }

/-- An unknown opcode moves PC by 2 and emits an event (R86). -/
theorem inv_unknownOpcode {s : State} (hs : Inv s) (hrun : s.halted = false) (hpc : s.pc.toNat ≤ 0xFFE)
    (diag : List DiagEvent) : Inv { s with diag := diag, pc := s.pc + 2 } := by
  have hnone : s.fault = none := by simpa [hrun] using hs.halted_iff
  exact
    { memory := hs.memory
      halted_iff := hs.halted_iff
      record := by simp [hnone]
      pc_le := advance_le (u := .next) hpc nofun
      stack_le := hs.stack_le }

theorem cycle_inv {s t : State} (hs : Inv s) (hrun : s.halted = false) (h : cycle s = .next t) : Inv t := by
  obtain ⟨hpc, hc⟩ | ⟨hpc, w, -, -, hc⟩ | ⟨hpc, w, i, -, -, hc⟩ := cycle_cases s <;> rw [hc] at h
  · cases h
    exact inv_raiseFatal hs ⟨rfl, _, rfl, le_max_right s.pc.toNat 0x1000⟩
  · cases h
    exact inv_unknownOpcode hs hrun (by omega) _
  · exact exec_inv hs hrun (by omega) h

/-- The invariant does not speak of timers, input ports and the boundary counter. -/
theorem inv_boundary {s : State} (hs : Inv s) (dt st : Byte) (inp : Inputs) (samples : Nat) :
    Inv { s with dt := dt, st := st, inputs := inp, samples := samples } :=
  ⟨hs.memory, hs.halted_iff, hs.record, hs.pc_le, hs.stack_le⟩

theorem inv_environment {s : State} (hs : Inv s) : Inv (environment s) :=
  inv_boundary hs _ _ (sampledInputs s) (s.samples + 1)

/-- Settles O18: the boundary before a step keeps the invariant, and so does the cycle that follows it. -/
theorem invariantIsKeptByEveryStep : Obligations.InvariantIsKeptByEveryStep := by
  intro s t hs h
  cases hrun : s.halted with
  | true =>
    rw [step_halted hrun] at h
    cases h
    exact hs
  | false =>
    rw [step_running hrun] at h
    exact cycle_inv (inv_environment hs) hrun h

/-! ## Every transaction -/

theorem stepWith_inv {inp : Inputs} {s t : State} (hs : Inv s) (h : stepWith inp s = .next t) : Inv t := by
  cases hrun : s.halted with
  | true =>
    rw [stepWith_halted inp hrun] at h
    cases h
    exact hs
  | false =>
    rw [stepWith_running inp hrun] at h
    exact cycle_inv (inv_boundary hs s.dt s.st inp s.samples) hrun h

theorem tick_inv {s : State} (hs : Inv s) : Inv (tick s) := by
  cases hrun : s.halted with
  | true => rwa [tick, if_pos hrun]
  | false =>
    rw [tick_eq hrun]
    exact inv_boundary hs _ _ s.inputs s.samples

theorem inv_reset : Inv State.reset where
  memory := ⟨.nil, nofun⟩
  halted_iff := rfl
  record := nofun
  pc_le := by simp [State.reset]
  stack_le k := by simp [State.reset]

/-- Settles O19: nothing is listed, nothing is recorded, and PC and the stack are constants. -/
theorem invariantHoldsAtReset : Obligations.InvariantHoldsAtReset := inv_reset

/-- A reset with a ROM differs from the one without in memory alone, and what the invariant says of it holds there. -/
theorem inv_builtState (p : Params) {rom : List Byte} (samples randDraws : Nat) (diag : List DiagEvent)
    (h : rom.length ≤ 3584) : Inv (builtState p rom samples randDraws diag) :=
  ⟨loadedMemory_wf p h, inv_reset.halted_iff, inv_reset.record, inv_reset.pc_le, inv_reset.stack_le⟩

theorem transact_inv {p : Params} (tr : Transaction) (s t : State) (hs : Inv s) (h : transact p tr s = .next t) :
    Inv t := by
  cases tr with
  | reset rom =>
    by_cases hlen : rom.length ≤ 3584
    · rw [transact_reset p s hlen] at h
      cases h
      exact inv_builtState p _ _ _ hlen
    · rw [transact_reset_oversize p s (by omega)] at h
      cases h
  | step inp => exact stepWith_inv hs h
  | tick => cases h; exact tick_inv hs
  | quit => cases h; exact hs

/-- Settles O20: by the induction over a schedule, from each transaction. -/
theorem invariantIsKeptAlongEverySchedule : Obligations.InvariantIsKeptAlongEverySchedule := by
  intro p ts s t hs h
  exact runSchedule_keeps transact_inv ts s t hs h

end Sys2Proof.Machine
end

section
/-! SUPPORT. Memory and the step (20_memory.md): a fetch past memory, what an instruction stores, the font table under
policy `fault`, and the word that a register dump leaves for the engine to fetch. -/

namespace Sys2Proof.Machine

/-! ## Fetching past memory (R65, R66) -/

/-- A cycle whose second byte does not exist halts with no word; at PC = 0x0FFF the first byte still exists. -/
theorem cycle_pastMemory {s : State} (h : 0x0FFF ≤ s.pc.toNat) :
    cycle s = .next (haltedWith s
      { code := .memoryOutOfBounds, word := none, addr := s.pc,
        ea := some (if s.pc.toNat = 0x0FFF then 0x1000 else s.pc.toNat) }) := by
  have hea : max s.pc.toNat 0x1000 = if s.pc.toNat = 0x0FFF then 0x1000 else s.pc.toNat := by
    split <;> omega
  rw [cycle, fetch_error (by omega), hea]
  rfl

/-- Settles O12: the cycle after the boundary, and after the given inputs. -/
theorem fetchPastMemoryHalts : Obligations.FetchPastMemoryHalts := by
  intro s hrun hpc
  refine ⟨_, rfl, ?_, fun inp => ?_⟩
  · exact (step_running hrun).trans (cycle_pastMemory (s := environment s) hpc)
  · exact (stepWith_running inp hrun).trans (cycle_pastMemory (s := { s with inputs := inp }) hpc)

/-! ## What an instruction stores (R63, R64, R69) -/

/-- A completed instruction stores `storedBytes i` bytes from I, all of which it may write. -/
theorem Completes.stores {i : Instr} {s t : State} (hc : fatalCause s i = none) (h : exec i s = .next t)
    (hcomp : Completes i s t) :
    s.failingWrite (storedBytes i) = none ∧
      ∃ bs : List Byte, bs.length = storedBytes i ∧ t.mem = Memory.writeList s.mem (s.effective 0) bs := by
  cases i with
  | ldB x =>
    have hw := failingWrite_of_writeCause_none (by omega) hc
    rw [exec_ldB x hw] at h
    cases h
    exact ⟨hw, bcdDigits (s.reg x), rfl, rfl⟩
  | ldMemVx x =>
    have hw := failingWrite_of_writeCause_none (by omega) hc
    rw [exec_ldMemVx hw] at h
    cases h
    exact ⟨hw, s.regsThrough x, regsThrough_length s x, rfl⟩
  | _ =>
    rw [hcomp.frame]
    exact ⟨rfl, [], rfl, rfl⟩

/-- Settles O24: a fatal instruction stores nothing, a completed one exactly its bytes from I. -/
theorem memoryChangesOnlyAtTheStoredBytes : Obligations.MemoryChangesOnlyAtTheStoredBytes := by
  intro i s t h b hb
  obtain ⟨code, ea, -, rfl⟩ | ⟨hc, hcomp⟩ := exec_cases h
  · rfl
  · obtain ⟨-, bs, hlen, hmem⟩ := hcomp.stores hc h
    rw [hmem, read_writeList, hlen, if_neg hb]

/-! ## The font table under policy `fault` (R63, R70) -/

/-- Bytes that may be written under policy `fault` are not in the font table. -/
theorem not_stored_of_font {s : State} {n a : Nat} (hp : s.fontWritePolicy = .fault) (hw : s.failingWrite n = none)
    (hlo : 0x050 ≤ a) (hhi : a ≤ 0x09F) : ¬(s.effective 0 ≤ a ∧ a < s.effective 0 + n) := by
  rintro ⟨h1, h2⟩
  obtain ⟨-, hfont⟩ := writeCheck_none.1 (firstFailing_none.1 hw a h1 h2)
  exact hfont hp ⟨hlo, by omega⟩

/-- Under policy `fault` no instruction changes a byte of the font table. -/
theorem exec_read_font {i : Instr} {s t : State} {a : Nat} (hp : s.fontWritePolicy = .fault) (h : exec i s = .next t)
    (hlo : 0x050 ≤ a) (hhi : a ≤ 0x09F) : Memory.read t.mem a = Memory.read s.mem a := by
  obtain ⟨code, ea, -, rfl⟩ | ⟨hc, hcomp⟩ := exec_cases h
  · rfl
  · obtain ⟨hw, -⟩ := hcomp.stores hc h
    exact memoryChangesOnlyAtTheStoredBytes i s t h a (not_stored_of_font hp hw hlo hhi)

/-- Settles O21: of everything a step can be, only an instruction writes memory, and it does not write the font. -/
theorem fontTableIsImmutableUnderFaultPolicy : Obligations.FontTableIsImmutableUnderFaultPolicy := by
  intro s t hp h
  cases hrun : s.halted with
  | true =>
    rw [step_halted hrun] at h
    cases h
    exact ⟨hp, fun _ _ _ => rfl⟩
  | false =>
    obtain ⟨-, hs⟩ | ⟨-, w, -, -, hs⟩ | ⟨-, w, i, -, -, hs⟩ := step_cases hrun <;> rw [hs] at h
    · cases h
      exact ⟨hp, fun _ _ _ => rfl⟩
    · cases h
      exact ⟨hp, fun _ _ _ => rfl⟩
    · obtain ⟨-, hpolicy, -⟩ := onlyWritersChangeAPart i (environment s) t h
      exact ⟨hpolicy.trans hp, fun a => exec_read_font (s := environment s) hp h⟩

/-! ## A stored word is fetched (R75, R235) -/

/-- A register dump leaves Vk at I + k (R164). -/
theorem read_storeAtI_regsThrough (s : State) {x k : Reg} (hk : k.val ≤ x.val) :
    Memory.read (s.storeAtI (s.regsThrough x)).mem (s.effective k.val) = s.reg k := by
  have hlt : k.val < (s.regsThrough x).length := by rw [regsThrough_length]; omega
  have hoff : s.effective k.val - s.effective 0 = k.val := by simp only [State.effective]; omega
  have hin : s.effective 0 ≤ s.effective k.val ∧ s.effective k.val < s.effective 0 + (s.regsThrough x).length := by
    simp only [State.effective]; omega
  rw [mem_storeAtI, read_writeList, if_pos hin, hoff, List.getD_eq_getElem _ _ hlt, regsThrough_getElem]

/-- Settles O31: the dump completes, and the two bytes fetched at I are the ones it stored there. -/
theorem storedWordIsFetchedNext : Obligations.StoredWordIsFetchedNext := by
  intro x s hx hm hf
  refine ⟨_, exec_ldMemVx (failingWrite_none (by omega) hm hf), fun u hmem hpc => ?_⟩
  have hhi : Memory.read u.mem u.pc.toNat = s.reg 0 := by
    rw [hmem, hpc]
    exact read_storeAtI_regsThrough s (k := 0) (Nat.zero_le _)
  have hlo : Memory.read u.mem (u.pc.toNat + 1) = s.reg 1 := by
    rw [hmem, hpc]
    exact read_storeAtI_regsThrough s (k := 1) hx
  have hfetch : u.pc.toNat + 1 < 0x1000 := by
    rw [hpc]
    simp only [State.effective] at hm
    omega
  rw [fetch_ok hfetch, hhi, hlo]

end Sys2Proof.Machine
end

section
/-! SUPPORT. The instruction format and the round trips between words and instructions (30_encoding.md R81, R84, R88):
the decoder against the encoder, group by group, in both directions. -/

namespace Sys2Proof

/-! ## Fields and packed words (R81, R84) -/

theorem fields_joined (w : Word) :
    (fieldsOf w).op0 ++ (fieldsOf w).x ++ (fieldsOf w).y ++ (fieldsOf w).n = w := by
  conv_rhs => rw [← packXyn_fields (w := w) rfl rfl]
  simp [packXyn]

theorem nn_eq_join (w : Word) : (fieldsOf w).nn = (fieldsOf w).y ++ (fieldsOf w).n := by
  apply BitVec.eq_of_toNat_eq
  have hjoin := toNat_join (fieldsOf w).y (fieldsOf w).n
  rw [toNat_y, toNat_n] at hjoin
  refine Eq.trans ?_ hjoin.symm
  rw [toNat_nn]
  omega

theorem nnn_eq_join (w : Word) : (fieldsOf w).nnn = (fieldsOf w).x ++ (fieldsOf w).y ++ (fieldsOf w).n := by
  apply BitVec.eq_of_toNat_eq
  have hjoin := toNat_join ((fieldsOf w).x ++ (fieldsOf w).y) (fieldsOf w).n
  rw [toNat_join (fieldsOf w).x, toNat_x, toNat_y, toNat_n] at hjoin
  refine Eq.trans ?_ hjoin.symm
  rw [toNat_nnn]
  omega

/-- Settles O1: each field is the number at its place, and so is what the nibbles join to. -/
theorem fieldsAreTheNibbles : Obligations.FieldsAreTheNibbles :=
  fun w => ⟨fields_joined w, nn_eq_join w, nnn_eq_join w⟩

/-- Settles O2: each word is packed from its operands, and a packed word is a sum of them at their places. -/
theorem encodingsAreThePatterns : Obligations.EncodingsAreThePatterns := by
  intro x y n nn nnn
  simp only [encode, toNat_packNnn, toNat_packXnn, toNat_packXyn, toNat_nibbleOfFin, BitVec.reduceToNat, true_and]
  and_intros <;> omega

/-! ## Decode of encode (R84, R85, R88) -/

theorem decodeWord_encode {i : Instr} (h : wellFormed i = true) : decodeWord (encode i) = some i := by
  revert h
  change Laws.RoundTrip.Statement i
  cases i with
  | sys nnn => exact Laws.RoundTrip.sys nnn
  | cls => exact Laws.RoundTrip.cls
  | ret => exact Laws.RoundTrip.ret
  | jp nnn => exact Laws.RoundTrip.jp nnn
  | call nnn => exact Laws.RoundTrip.call nnn
  | seImm x nn => exact Laws.RoundTrip.seImm x nn
  | sneImm x nn => exact Laws.RoundTrip.sneImm x nn
  | seReg x y => exact Laws.RoundTrip.seReg x y
  | ldImm x nn => exact Laws.RoundTrip.ldImm x nn
  | addImm x nn => exact Laws.RoundTrip.addImm x nn
  | ldReg x y => exact Laws.RoundTrip.ldReg x y
  | orReg x y => exact Laws.RoundTrip.orReg x y
  | andReg x y => exact Laws.RoundTrip.andReg x y
  | xorReg x y => exact Laws.RoundTrip.xorReg x y
  | addReg x y => exact Laws.RoundTrip.addReg x y
  | subReg x y => exact Laws.RoundTrip.subReg x y
  | shr x y => exact Laws.RoundTrip.shr x y
  | subnReg x y => exact Laws.RoundTrip.subnReg x y
  | shl x y => exact Laws.RoundTrip.shl x y
  | sneReg x y => exact Laws.RoundTrip.sneReg x y
  | ldI nnn => exact Laws.RoundTrip.ldI nnn
  | jpV0 nnn => exact Laws.RoundTrip.jpV0 nnn
  | rnd x nn => exact Laws.RoundTrip.rnd x nn
  | drw x y n => exact Laws.RoundTrip.drw x y n
  | skp x => exact Laws.RoundTrip.skp x
  | sknp x => exact Laws.RoundTrip.sknp x
  | ldVxDt x => exact Laws.RoundTrip.ldVxDt x
  | ldVxK x => exact Laws.RoundTrip.ldVxK x
  | ldDtVx x => exact Laws.RoundTrip.ldDtVx x
  | ldStVx x => exact Laws.RoundTrip.ldStVx x
  | addI x => exact Laws.RoundTrip.addI x
  | ldF x => exact Laws.RoundTrip.ldF x
  | ldB x => exact Laws.RoundTrip.ldB x
  | ldMemVx x => exact Laws.RoundTrip.ldMemVx x
  | ldVxMem x => exact Laws.RoundTrip.ldVxMem x

/-- Settles O4: by the round trip of each instruction, as a word and then as its two bytes. -/
theorem encodeThenDecodeGivesTheInstruction : Obligations.EncodeThenDecodeGivesTheInstruction := by
  intro i h
  exact ⟨decodeWord_encode h, decode_encodeBytes (decodeWord_encode h)⟩

/-- Settles O3: each word is the encoding of the well-formed instruction it stands for. -/
theorem wordsWrittenOutDecode : Obligations.WordsWrittenOutDecode :=
  ⟨decodeWord_encode (i := .cls) rfl, decodeWord_encode (i := .ldI 0x22A) rfl,
    decodeWord_encode (i := .ldImm 0 0x0C) rfl, decodeWord_encode (i := .ldImm 1 0x08) rfl,
    decodeWord_encode (i := .drw 0 1 15) rfl, decodeWord_encode (i := .addImm 0 0x09) rfl,
    decodeWord_encode (i := .call 0x300) rfl, decodeWord_encode (i := .shr 10 11) rfl,
    decodeWord_encode (i := .ldVxMem 3) rfl,
    decodeWord_encode (i := .skp 5) rfl⟩

/-! ## Encode of decode (R81, R84) -/

/-- The instruction is a well-formed one whose word is `w`. -/
def Encodes (i : Instr) (w : Word) : Prop := encode i = w ∧ wellFormed i = true

theorem encodes_decodeGroup0 {w : Word} (h0 : (fieldsOf w).op0 = 0x0) : Encodes (decodeGroup0 (fieldsOf w).nnn) w := by
  have hpack := packNnn_fields h0
  unfold decodeGroup0
  split
  next hcls => rw [hcls] at hpack; exact ⟨hpack, rfl⟩
  next hcls =>
    split
    next hret => rw [hret] at hpack; exact ⟨hpack, rfl⟩
    next hret => exact ⟨hpack, Bool.and_eq_true_iff.2 ⟨bne_iff_ne.2 hcls, bne_iff_ne.2 hret⟩⟩

theorem encodes_decodeGroup8 {w : Word} {i : Instr} (h0 : (fieldsOf w).op0 = 0x8)
    (h : decodeGroup8 (regOfNibble (fieldsOf w).x) (regOfNibble (fieldsOf w).y) (fieldsOf w).n.toNat = some i) :
    Encodes i w := by
  unfold decodeGroup8 at h
  split at h <;> cases h <;> exact ⟨packXyn_fields h0 (BitVec.eq_of_toNat_eq ‹_›), rfl⟩

theorem encodes_decodeGroupE {w : Word} {i : Instr} (h0 : (fieldsOf w).op0 = 0xE)
    (h : decodeGroupE (regOfNibble (fieldsOf w).x) (fieldsOf w).nn.toNat = some i) : Encodes i w := by
  unfold decodeGroupE at h
  split at h <;> cases h <;> exact ⟨packXnn_fields h0 (BitVec.eq_of_toNat_eq ‹_›), rfl⟩

theorem encodes_decodeGroupF {w : Word} {i : Instr} (h0 : (fieldsOf w).op0 = 0xF)
    (h : decodeGroupF (regOfNibble (fieldsOf w).x) (fieldsOf w).nn.toNat = some i) : Encodes i w := by
  unfold decodeGroupF at h
  split at h <;> cases h <;> exact ⟨packXnn_fields h0 (BitVec.eq_of_toNat_eq ‹_›), rfl⟩

/-- The instruction a word decodes to encodes to that word: each row keeps every field that it does not fix. The case
`h_k` of the decoder is that of the first nibble k - 1. -/
theorem encodes_of_decodeWord {w : Word} {i : Instr} (h : decodeWord w = some i) : Encodes i w := by
  unfold decodeWord at h
  dsimp only at h
  split at h
  case h_1 h0 => cases h; exact encodes_decodeGroup0 (BitVec.eq_of_toNat_eq h0)
  case h_9 h0 => exact encodes_decodeGroup8 (BitVec.eq_of_toNat_eq h0) h
  case h_15 h0 => exact encodes_decodeGroupE (BitVec.eq_of_toNat_eq h0) h
  case h_16 h0 => exact encodes_decodeGroupF (BitVec.eq_of_toNat_eq h0) h
  case h_2 h0 | h_3 h0 | h_11 h0 | h_12 h0 =>
    cases h
    exact ⟨packNnn_fields (BitVec.eq_of_toNat_eq h0), rfl⟩
  case h_4 h0 | h_5 h0 | h_7 h0 | h_8 h0 | h_13 h0 =>
    cases h
    exact ⟨packXnn_fields (BitVec.eq_of_toNat_eq h0) rfl, rfl⟩
  case h_6 h0 | h_10 h0 =>
    obtain ⟨hn, hi⟩ := Option.ite_none_right_eq_some.1 h
    cases hi
    exact ⟨packXyn_fields (BitVec.eq_of_toNat_eq h0) hn, rfl⟩
  case h_14 h0 =>
    cases h
    refine ⟨?_, rfl⟩
    rw [encode, nibbleOfFin_regOfNibble]
    exact packXyn_fields (BitVec.eq_of_toNat_eq h0) rfl
  case h_17 => cases h

/-- Settles O5: by the decoder's cases. -/
theorem decodeThenEncodeGivesTheWord : Obligations.DecodeThenEncodeGivesTheWord :=
  fun _ _ => encodes_of_decodeWord

/-! ## The unknown words (R86) -/

theorem decodeGroup8_eq_none {x y : Reg} {n : Nat} (hn : n < 16) :
    decodeGroup8 x y n = none ↔ n ∈ [0x8, 0x9, 0xA, 0xB, 0xC, 0xD, 0xF] := by
  interval_cases n <;> simp [decodeGroup8]

theorem decodeGroupE_eq_none {x : Reg} {nn : Nat} : decodeGroupE x nn = none ↔ nn ∉ [0x9E, 0xA1] := by
  unfold decodeGroupE
  split <;> simp_all

theorem decodeGroupF_eq_none {x : Reg} {nn : Nat} :
    decodeGroupF x nn = none ↔ nn ∉ [0x07, 0x0A, 0x15, 0x18, 0x1E, 0x29, 0x33, 0x55, 0x65] := by
  unfold decodeGroupF
  split <;> simp_all

/-- R86's set of unknown words, case by case of the decoder (`h_k` is the case of the first nibble k - 1). -/
theorem decodeWord_eq_none (w : Word) : decodeWord w = none ↔
    (w.toNat / 0x1000 = 0x5 ∧ w.toNat % 0x10 ≠ 0) ∨
    (w.toNat / 0x1000 = 0x8 ∧ w.toNat % 0x10 ∈ [0x8, 0x9, 0xA, 0xB, 0xC, 0xD, 0xF]) ∨
    (w.toNat / 0x1000 = 0x9 ∧ w.toNat % 0x10 ≠ 0) ∨
    (w.toNat / 0x1000 = 0xE ∧ w.toNat % 0x100 ∉ [0x9E, 0xA1]) ∨
    (w.toNat / 0x1000 = 0xF ∧ w.toNat % 0x100 ∉ [0x07, 0x0A, 0x15, 0x18, 0x1E, 0x29, 0x33, 0x55, 0x65]) := by
  simp only [← toNat_op0, ← toNat_n, ← toNat_nn]
  unfold decodeWord
  dsimp only
  split
  case h_9 h0 => simp only [h0, decodeGroup8_eq_none (fieldsOf w).n.isLt]; simp
  case h_15 h0 => simp only [h0, decodeGroupE_eq_none]; simp
  case h_16 h0 => simp only [h0, decodeGroupF_eq_none]; simp
  case h_6 h0 | h_10 h0 => simp [h0, ← BitVec.toNat_inj]
  case h_17 => have := (fieldsOf w).op0.isLt; grind
  case h_1 h0 | h_2 h0 | h_3 h0 | h_4 h0 | h_5 h0 | h_7 h0 | h_8 h0 | h_11 h0 | h_12 h0 | h_13 h0 | h_14 h0 =>
    simp [h0]

end Sys2Proof
end

section
/-! SUPPORT. The opcode table (30_encoding.md R84, R85): which rows one word can match, which row is selected, and that
the decoder selects it. -/

namespace Sys2Proof

/-! ## Rows that one word can match (R85) -/

/-- The values differ on a bit that both masks keep, so no word matches both rows. -/
abbrev OpcodeRow.Apart (r q : OpcodeRow) : Prop := r.value &&& q.mask ≠ q.value &&& r.mask

theorem not_apart_of_isMatch {r q : OpcodeRow} {w : Word} (hr : r.isMatch w = true) (hq : q.isMatch w = true) :
    ¬r.Apart q := by
  rw [OpcodeRow.isMatch, beq_iff_eq] at hr hq
  rw [OpcodeRow.Apart, not_not, ← hr, ← hq, BitVec.and_assoc, BitVec.and_assoc, BitVec.and_comm r.mask]

theorem disjointRows_pairwise_apart : disjointRows.Pairwise OpcodeRow.Apart := by decide

theorem eq_of_isMatch {w : Word} {r q : OpcodeRow} (hr : r ∈ disjointRows) (hq : q ∈ disjointRows)
    (hrw : r.isMatch w = true) (hqw : q.isMatch w = true) : r = q := by
  have symm : Std.Symm OpcodeRow.Apart := ⟨fun _ _ => Ne.symm⟩
  by_contra hne
  exact not_apart_of_isMatch hrw hqw (disjointRows_pairwise_apart.forall hr hq hne)

/-- Only the rows of CLS and RET are not apart from SYS, and each of them is one word. -/
theorem disjointRows_apart_sysRow :
    ∀ r ∈ disjointRows, r.Apart sysRow ∨ r.mask = 0xFFFF ∧ (r.value = 0x00E0 ∨ r.value = 0x00EE) := by decide

/-- A word that matches SYS and another row is the word of CLS or of RET. -/
theorem eq_cls_or_ret_of_isMatch {r : OpcodeRow} {w : Word} (hr : r ∈ disjointRows) (hrw : r.isMatch w = true)
    (hsys : sysRow.isMatch w = true) : w = 0x00E0 ∨ w = 0x00EE := by
  obtain hapart | ⟨hmask, hvalue⟩ := disjointRows_apart_sysRow r hr
  · exact absurd hapart (not_apart_of_isMatch hrw hsys)
  · have hw : w = r.value := by
      rw [OpcodeRow.isMatch, hmask, beq_iff_eq] at hrw
      exact BitVec.and_allOnes.symm.trans hrw
    exact hw ▸ hvalue

theorem isMatch_sysRow (w : Word) : sysRow.isMatch w = true ↔ w.toNat < 0x1000 := by
  rw [sysRow, isMatch_F000, decide_eq_true_iff]
  change w.toNat / 4096 * 4096 = 0 ↔ _
  omega

/-! ## The row a word selects -/

theorem isMatch_of_find? {rows : List OpcodeRow} {w : Word} {r : OpcodeRow}
    (h : rows.find? (fun q => q.isMatch w) = some r) : r.isMatch w = true :=
  List.find?_some (p := fun q : OpcodeRow => q.isMatch w) h

theorem matchingRow_eq (w : Word) :
    matchingRow w = (disjointRows.find? (·.isMatch w)).or (if sysRow.isMatch w then some sysRow else none) := by
  rw [matchingRow, opcodeTable, List.find?_append]
  simp only [List.find?_cons, List.find?_nil]
  cases sysRow.isMatch w <;> rfl

theorem matchingRow_of_isMatch {r : OpcodeRow} {w : Word} (hr : r ∈ disjointRows) (hrw : r.isMatch w = true) :
    matchingRow w = some r := by
  rw [matchingRow_eq]
  cases hq : disjointRows.find? (·.isMatch w) with
  | none => exact absurd hrw (List.find?_eq_none.1 hq r hr)
  | some q => rw [eq_of_isMatch hr (List.mem_of_find?_eq_some hq) hrw (isMatch_of_find? hq)]; rfl

theorem matchingRow_eq_sysRow (w : Word) :
    matchingRow w = some sysRow ↔ w.toNat < 0x1000 ∧ w ≠ 0x00E0 ∧ w ≠ 0x00EE := by
  constructor
  · intro h
    refine ⟨(isMatch_sysRow w).1 (isMatch_of_find? h), ?_, ?_⟩ <;> rintro rfl <;> exact absurd h (by decide)
  · rintro ⟨hlt, hcls, hret⟩
    have hsys := (isMatch_sysRow w).2 hlt
    have hnone : disjointRows.find? (·.isMatch w) = none := by
      refine List.find?_eq_none.2 fun r hr hrw => ?_
      obtain hw | hw := eq_cls_or_ret_of_isMatch hr hrw hsys
      · exact hcls hw
      · exact hret hw
    rw [matchingRow_eq, hnone, if_pos hsys]
    rfl

/-- Settles O7: rows apart on a bit of both masks, and what that leaves for SYS. -/
theorem opcodeRowsAreDisjoint : Obligations.OpcodeRowsAreDisjoint :=
  ⟨fun _ _ _ => eq_of_isMatch, matchingRow_eq_sysRow⟩

/-! ## The decoder and the table -/

theorem exists_tableRow (i : Instr) : Laws.TableRow.Statement i := by
  cases i with
  | sys nnn => exact Laws.TableRow.sys nnn
  | cls => exact Laws.TableRow.cls
  | ret => exact Laws.TableRow.ret
  | jp nnn => exact Laws.TableRow.jp nnn
  | call nnn => exact Laws.TableRow.call nnn
  | seImm x nn => exact Laws.TableRow.seImm x nn
  | sneImm x nn => exact Laws.TableRow.sneImm x nn
  | seReg x y => exact Laws.TableRow.seReg x y
  | ldImm x nn => exact Laws.TableRow.ldImm x nn
  | addImm x nn => exact Laws.TableRow.addImm x nn
  | ldReg x y => exact Laws.TableRow.ldReg x y
  | orReg x y => exact Laws.TableRow.orReg x y
  | andReg x y => exact Laws.TableRow.andReg x y
  | xorReg x y => exact Laws.TableRow.xorReg x y
  | addReg x y => exact Laws.TableRow.addReg x y
  | subReg x y => exact Laws.TableRow.subReg x y
  | shr x y => exact Laws.TableRow.shr x y
  | subnReg x y => exact Laws.TableRow.subnReg x y
  | shl x y => exact Laws.TableRow.shl x y
  | sneReg x y => exact Laws.TableRow.sneReg x y
  | ldI nnn => exact Laws.TableRow.ldI nnn
  | jpV0 nnn => exact Laws.TableRow.jpV0 nnn
  | rnd x nn => exact Laws.TableRow.rnd x nn
  | drw x y n => exact Laws.TableRow.drw x y n
  | skp x => exact Laws.TableRow.skp x
  | sknp x => exact Laws.TableRow.sknp x
  | ldVxDt x => exact Laws.TableRow.ldVxDt x
  | ldVxK x => exact Laws.TableRow.ldVxK x
  | ldDtVx x => exact Laws.TableRow.ldDtVx x
  | ldStVx x => exact Laws.TableRow.ldStVx x
  | addI x => exact Laws.TableRow.addI x
  | ldF x => exact Laws.TableRow.ldF x
  | ldB x => exact Laws.TableRow.ldB x
  | ldMemVx x => exact Laws.TableRow.ldMemVx x
  | ldVxMem x => exact Laws.TableRow.ldVxMem x

/-- A decoded word selects the row of its instruction; SYS is selected only where CLS and RET were not decoded. -/
theorem matchingRow_of_decodeWord {w : Word} {i : Instr} (h : decodeWord w = some i) :
    ∃ r, matchingRow w = some r ∧ r.mnemonic = mnemonicOf i := by
  obtain ⟨rfl, -⟩ := encodes_of_decodeWord h
  obtain ⟨r, hr, hname, hmatch⟩ := exists_tableRow i
  refine ⟨r, ?_, hname⟩
  obtain hr | hr := List.mem_append.1 hr
  · exact matchingRow_of_isMatch hr hmatch
  · obtain rfl := List.mem_singleton.1 hr
    refine (matchingRow_eq_sysRow _).2 ⟨(isMatch_sysRow _).1 hmatch, ?_, ?_⟩ <;>
    · intro hw
      rw [hw] at h
      cases h
      exact absurd hname (by decide)

/-- An unknown word fails the test of every row, in the first nibble or in the low bits. -/
theorem matchingRow_of_decodeWord_none {w : Word} (h : decodeWord w = none) : matchingRow w = none := by
  simp only [decodeWord_eq_none, List.mem_cons, List.not_mem_nil, or_false] at h
  rw [matchingRow, List.find?_eq_none]
  simp only [opcodeTable, disjointRows, opcodeRowsA, opcodeRowsB, opcodeRowsC, sysRow, List.cons_append,
    List.nil_append, List.forall_mem_cons, isMatch_F000, isMatch_F0FF, isMatch_F00F, isMatch_FFFF,
    decide_eq_true_iff, BitVec.reduceToNat, List.not_mem_nil, IsEmpty.forall_iff, implies_true, and_true]
  omega

/-- Settles O6: a word that decodes selects its instruction's row, and any other word matches no row. -/
theorem decoderFollowsTheOpcodeTable : Obligations.DecoderFollowsTheOpcodeTable := by
  intro w
  cases h : decodeWord w with
  | none => rw [matchingRow_of_decodeWord_none h]; rfl
  | some i =>
    obtain ⟨r, hr, hname⟩ := matchingRow_of_decodeWord h
    rw [hr]
    exact congrArg some hname.symm

end Sys2Proof
end

section
/-! SUPPORT. The step (30_encoding.md R86, R87, R91, R92): what the cycle does with the word at PC, that every state has
a next state, and where PC goes. -/

namespace Sys2Proof.Machine

/-! ## A decoded word at PC (R91) -/

theorem decodeWord_of_decode {hi lo : Byte} {i : Instr} {rest rest' : List Byte}
    (h : decode (hi :: lo :: rest) = .ok (i, rest')) : decodeWord (wordOfBytes hi lo) = some i := by
  cases hd : decodeWord (wordOfBytes hi lo) with
  | none => simp [decode, hd] at h
  | some j =>
    obtain ⟨hj, -⟩ : j = i ∧ rest = rest' := by simpa [decode, hd] using h
    exact congrArg some hj

theorem cycle_of_decodeWord {s : State} {w : Word} {i : Instr} (hf : s.fetch = .ok w) (hd : decodeWord w = some i) :
    cycle s = exec i s := by
  simp only [cycle, hf, hd]

/-- Settles O9: the boundary, and the given inputs, leave what the cycle fetches. -/
theorem stepRunsTheDecodedInstruction : Obligations.StepRunsTheDecodedInstruction := by
  intro s i hrun hpc hdec
  have hf := fetch_ok hpc
  have hd := decodeWord_of_decode hdec
  refine ⟨?_, fun inp => ?_⟩
  · rw [step_running hrun]
    exact cycle_of_decodeWord (s := environment s) hf hd
  · rw [stepWith_running inp hrun]
    exact cycle_of_decodeWord (s := { s with inputs := inp }) hf hd

/-! ## An unknown word at PC (R86, R207) -/

theorem onlyChanges_pc (s : State) (pc : Word) : OnlyChanges [] s { s with pc := pc } :=
  ⟨fun p _ => by cases p <;> simp [Unchanged, State.reg], rfl, rfl, rfl, rfl, rfl, rfl⟩

theorem cycle_skipsUnknown {s : State} {w : Word} (hf : s.fetch = .ok w) (hd : decodeWord w = none) :
    SkipsUnknown (cycle s) s w := by
  refine ⟨{ s with diag := .unknownOpcode w s.pc :: s.diag, pc := s.pc + 2 }, ?_, rfl, rfl, onlyChanges_pc _ _⟩
  simp only [cycle, hf, hd]
  rfl

/-- Settles O8: the decoder's cases give the set; the boundary, and the given inputs, leave what the cycle fetches. -/
theorem unknownWordsAreNoOps : Obligations.UnknownWordsAreNoOps := by
  refine ⟨decodeWord_eq_none, fun s w hf hd => ⟨cycle_skipsUnknown hf hd, fun hrun => ⟨?_, fun inp => ?_⟩⟩⟩
  · rw [step_running hrun]
    exact cycle_skipsUnknown (s := environment s) hf hd
  · rw [stepWith_running inp hrun]
    exact cycle_skipsUnknown (s := { s with inputs := inp }) hf hd

/-! ## Every state (R87, R91, R92, R208) -/

/-- Settles O13: each transaction tests `halted` first. -/
theorem haltedBlockIgnoresStepAndTick : Obligations.HaltedBlockIgnoresStepAndTick :=
  fun _ inp h => ⟨step_halted h, stepWith_halted inp h, if_pos h⟩

/-- An instruction raises its fatal cause or completes; either is a next state. -/
theorem exec_next (i : Instr) (s : State) : ∃ t, exec i s = .next t := by
  cases hc : fatalCause s i with
  | none => exact (exec_completes hc).imp fun _ => And.left
  | some cause => exact ⟨_, exec_fatal hc⟩

/-- Settles O14: by everything a step can be. -/
theorem stepAlwaysAnswersANextState : Obligations.StepAlwaysAnswersANextState := by
  intro s
  cases hrun : s.halted with
  | true => exact ⟨s, step_halted hrun⟩
  | false =>
    obtain ⟨-, hs⟩ | ⟨-, w, -, -, hs⟩ | ⟨-, w, i, -, -, hs⟩ := step_cases hrun
    · exact ⟨_, hs⟩
    · exact ⟨_, hs⟩
    · rw [hs]
      exact exec_next i (environment s)

/-- Settles O25: an instruction without a fatal cause completes, and goes on by the table. -/
theorem pcFollowsTheUpdateTable : Obligations.PcFollowsTheUpdateTable := by
  intro i s t hc h
  obtain ⟨u, hu, hcomp⟩ := exec_completes hc
  rw [hu] at h
  cases h
  exact hcomp.pc

end Sys2Proof.Machine
end

section
/-! SUPPORT. The frame of a completed instruction in the words of the statements, and the flag as a byte. -/

namespace Sys2Proof.Machine

/-- The next state of an instruction without a fatal cause is the completed one. -/
theorem completes_of_exec {i : Instr} {s t : State} (hc : fatalCause s i = none) (h : exec i s = .next t) :
    Completes i s t := by
  obtain ⟨code, ea, hf, -⟩ | ⟨-, hcomp⟩ := exec_cases h
  · rw [hc] at hf
    cases hf
  · exact hcomp

theorem Completes.onlyChanges {i : Instr} {s t : State} {parts : List Part} (h : Completes i s t)
    (hparts : ∀ p, p ∉ parts → mayChange p i = false) : OnlyChanges parts s t :=
  ⟨fun p hp => h.unchanged (hparts p hp), h.status⟩

theorem Completes.regsBut {i : Instr} {s t : State} {rs : List Reg} (h : Completes i s t)
    (hrs : ∀ r, r ∉ rs → writesRegister r i = false) : RegsBut rs s t :=
  fun r hr => h.registers r (hrs r hr)

theorem flagByte_eq_one {c : Bool} : flagByte c = 1 ↔ c = true := by
  cases c <;> decide

theorem flagByte_eq_one_or_zero (c : Bool) : flagByte c = 1 ∨ flagByte c = 0 := by
  cases c <;> decide

end Sys2Proof.Machine
end

section
/-! SUPPORT. The display (40_display.md R100 to R102): CLS, and DRW through the closed form of its sprite. -/

namespace Sys2Proof.Machine

/-! ## CLS (R100) -/

theorem pixel_zero (X Y : Nat) : Framebuffer.pixel 0 X Y = false := BitVec.getLsbD_zero

theorem mayChange_cls {p : Part} (h : p ∉ [Part.screen]) : mayChange p .cls = false := by
  cases p with
  | screen => simp at h
  | _ => rfl

theorem decodeWord_eq_cls {w : Word} : decodeWord w = some .cls ↔ w = 0x00E0 := by
  constructor
  · intro h
    obtain ⟨hw, -⟩ := encodes_of_decodeWord h
    exact hw.symm
  · rintro rfl
    exact decodeWord_encode (i := .cls) rfl

/-- Settles O55: the next state has the zero framebuffer; its frame is that of a completed instruction, and the word is
the encoder's. -/
theorem clearScreenZeroesEveryPixel : Obligations.ClearScreenZeroesEveryPixel := by
  refine ⟨fun s => ?_, rfl, fun _ => decodeWord_eq_cls⟩
  have hcomp := completes_of_exec rfl (exec_cls s)
  exact ⟨_, exec_cls s, fun X Y _ _ => pixel_zero X Y, hcomp.pc, hcomp.onlyChanges fun _ => mayChange_cls⟩

/-! ## The whole sprite in closed form (R101) -/

theorem drawSprite_pixel (fb : Framebuffer) (cx cy : Nat) (sprite : Nat → Byte) {n X Y : Nat} (hn : n ≤ 32)
    (hX : X < 64) (hY : Y < 32) :
    Framebuffer.pixel (drawSprite fb cx cy n sprite).fb X Y =
      (Framebuffer.pixel fb X Y ^^ spriteBitAt cx cy n sprite X Y) :=
  rows_pixel cx cy sprite _ hn hX hY

theorem drawSprite_collide (fb : Framebuffer) (cx cy : Nat) (sprite : Nat → Byte) {n : Nat} (hn : n ≤ 32) :
    (drawSprite fb cx cy n sprite).collide = true ↔
      ∃ X Y, X < 64 ∧ Y < 32 ∧ Framebuffer.pixel fb X Y = true ∧ spriteBitAt cx cy n sprite X Y = true := by
  rw [drawSprite, rows_collide cx cy sprite _ hn]
  simp

/-! ## One draw (R101) -/

/-- `DRW Vx, Vy, n` at `s` has a set sprite bit on the pixel at column X and row Y. -/
def State.spriteBit (s : State) (x y : Reg) (n : Fin 16) (X Y : Nat) : Bool :=
  spriteBitAt (s.reg x).toNat (s.reg y).toNat n.val s.byteAtI X Y

/-- From `s` the instruction `DRW Vx, Vy, n` completes in `t`, with the sprite drawn and the collision in VF. -/
structure Draws (x y : Reg) (n : Fin 16) (s t : State) : Prop where
  answer : exec (.drw x y n) s = .next t
  completes : Completes (.drw x y n) s t
  pixel : ∀ X Y, X < 64 → Y < 32 →
    Framebuffer.pixel t.fb X Y = (Framebuffer.pixel s.fb X Y ^^ s.spriteBit x y n X Y)
  flag : t.reg vf = 1 ∨ t.reg vf = 0
  collides : t.reg vf = 1 ↔
    ∃ X Y, X < 64 ∧ Y < 32 ∧ Framebuffer.pixel s.fb X Y = true ∧ s.spriteBit x y n X Y = true

theorem fatalCause_drw {s : State} (x y : Reg) {n : Fin 16} (h : s.failingRead n.val = none) :
    fatalCause s (.drw x y n) = none := by
  change readCause s.i.toNat n.val = none
  rw [readCause_eq, h]
  rfl

/-- A draw whose sprite bytes exist completes, by the closed form of its canvas. -/
theorem exists_draws {s : State} (x y : Reg) {n : Fin 16} (h : n.val = 0 ∨ s.effective 0 + n.val ≤ 0x1000) :
    ∃ t, Draws x y n s t := by
  have hread : s.failingRead n.val = none := failingRead_none.2 h
  have hrows : n.val ≤ 32 := by omega
  have hexec := exec_drw x y hread
  have hvf := (reg_setFlag s (drawSprite s.fb (s.reg x).toNat (s.reg y).toNat n.val s.byteAtI).collide vf).trans
    (if_pos rfl)
  exact ⟨_,
    { answer := hexec
      completes := completes_of_exec (fatalCause_drw x y hread) hexec
      pixel := fun X Y hX hY => drawSprite_pixel s.fb _ _ s.byteAtI hrows hX hY
      flag := hvf ▸ flagByte_eq_one_or_zero _
      collides :=
        (Eq.congr_left hvf).trans (flagByte_eq_one.trans (drawSprite_collide s.fb _ _ s.byteAtI hrows)) }⟩

theorem mayChange_drw {x y : Reg} {n : Fin 16} {p : Part} (h : p ∉ [Part.registers, Part.screen]) :
    mayChange p (.drw x y n) = false := by
  cases p with
  | registers => simp at h
  | screen => simp at h
  | _ => rfl

theorem writesRegister_drw {x y r : Reg} {n : Fin 16} (h : r ∉ [vf]) : writesRegister r (.drw x y n) = false := by
  simpa [writesRegister] using h

/-- Settles O56: a draw whose sprite bytes exist, with the frame of a completed instruction. -/
theorem drawXorsTheSprite : Obligations.DrawXorsTheSprite := by
  intro x y n s h
  obtain ⟨t, hd⟩ := exists_draws x y h
  exact ⟨t, hd.answer, hd.pixel, hd.flag, hd.collides, hd.completes.regsBut fun _ => writesRegister_drw,
    hd.completes.pc, hd.completes.onlyChanges fun _ => mayChange_drw⟩

/-! ## Two draws (R102) -/

theorem Draws.effective {x y : Reg} {n : Fin 16} {s t : State} (h : Draws x y n s t) (k : Nat) :
    t.effective k = s.effective k := by
  rw [h.completes.frame]
  rfl

/-- A draw changes neither I nor memory nor a register other than VF, so with coordinates in other registers the next
draw has the same sprite at the same place. -/
theorem Draws.spriteBit {x y : Reg} {n : Fin 16} {s t : State} (h : Draws x y n s t) (hx : x ≠ vf) (hy : y ≠ vf) :
    t.spriteBit x y n = s.spriteBit x y n := by
  have hregs : RegsBut [vf] s t := h.completes.regsBut fun _ => writesRegister_drw
  have hbytes : t.byteAtI = s.byteAtI := by
    rw [h.completes.frame]
    rfl
  funext X Y
  rw [State.spriteBit, State.spriteBit, hregs x (by simpa using hx), hregs y (by simpa using hy), hbytes]

/-- Settles O57: the second draw has the sprite bits of the first, so the two XORs cancel; and where a bit is set, the
first draw has turned a pixel that was 0 to 1. -/
theorem drawTwiceRestoresTheScreen : Obligations.DrawTwiceRestoresTheScreen := by
  intro x y n s hx hy h
  obtain ⟨t, hfirst⟩ := exists_draws x y h
  obtain ⟨u, hsecond⟩ := exists_draws (s := t) x y (hfirst.effective 0 ▸ h)
  have hbits := hfirst.spriteBit hx hy
  refine ⟨t, u, hfirst.answer, hsecond.answer, pixel_ext fun X Y hX hY => ?_, hsecond.collides.trans ?_⟩
  · rw [hsecond.pixel X Y hX hY, hfirst.pixel X Y hX hY, hbits, Bool.xor_assoc, Bool.xor_self, Bool.xor_false]
  · refine exists_congr fun X => exists_congr fun Y => and_congr_right fun hX => and_congr_right fun hY => ?_
    rw [hfirst.pixel X Y hX hY, hbits]
    change _ ↔ Framebuffer.pixel s.fb X Y = false ∧ s.spriteBit x y n X Y = true
    refine and_congr_left fun hbit => ?_
    rw [hbit, Bool.xor_true, Bool.not_eq_true']

end Sys2Proof.Machine
end

section
/-! SUPPORT. Control transfer (41_control.md R110 to R119): what moves PC alone, and the two instructions of the call
stack. -/

namespace Sys2Proof.Machine

/-! ## Jumps and skips (R110, R112, R114 to R118) -/

/-- A meaning that answers the state with another PC only moves PC. -/
theorem onlyMovesPc_of_exec {i : Instr} {s : State} {target : Word}
    (h : exec i s = .next { s with pc := target }) : OnlyMovesPc i s target :=
  ⟨_, h, rfl, onlyChanges_pc s target⟩

/-- Settles O48: SYS only moves PC. -/
theorem sysIsANoOp : Obligations.SysIsANoOp :=
  fun nnn s => onlyMovesPc_of_exec (exec_sys s nnn)

/-- Settles O49: each skip only moves PC; the two on inequality skip where the comparison fails. -/
theorem skipsTestTheirOperands : Obligations.SkipsTestTheirOperands := by
  intro x y nn s
  refine ⟨onlyMovesPc_of_exec (exec_seImm s x nn), ?_, onlyMovesPc_of_exec (exec_seReg s x y), ?_⟩
  · rw [ite_not]
    exact onlyMovesPc_of_exec (exec_sneImm s x nn)
  · rw [ite_not]
    exact onlyMovesPc_of_exec (exec_sneReg s x y)

/-- Settles O50: the target keeps its number when it is widened to a word, and the word is the packed one. -/
theorem jumpGoesToItsTarget : Obligations.JumpGoesToItsTarget :=
  fun nnn s => ⟨⟨_, exec_jp s nnn, toNat_immAddress nnn, onlyChanges_pc s _⟩, toNat_packNnn 0x1 nnn⟩

/-- Settles O51: the sum of a byte and a 12-bit address does not wrap. -/
theorem jumpWithOffsetAddsV0 : Obligations.JumpWithOffsetAddsV0 := by
  intro nnn s
  have hsum := toNat_jpV0 (s.reg 0) nnn
  have hbound : (s.reg 0).toNat + nnn.toNat ≤ 0x10FE := by omega
  exact ⟨_, exec_jpV0 s nnn, hsum, hsum.trans_le hbound, onlyChanges_pc s _⟩

/-! ## Calls and returns (R111, R113, R119) -/

theorem fatalCause_call_eq_none {s : State} (nnn : Imm12) (h : s.sp.val < 16) : fatalCause s (.call nnn) = none :=
  (fatalCause_call s nnn).trans (if_neg h.ne)

theorem fatalCause_ret_eq_none {s : State} (h : 0 < s.sp.val) : fatalCause s .ret = none :=
  (fatalCause_ret s).trans (if_neg h.ne')

theorem mayChange_call {nnn : Imm12} {p : Part} (h : p ∉ [Part.stack]) : mayChange p (.call nnn) = false := by
  cases p with
  | stack => simp at h
  | _ => rfl

theorem mayChange_ret {p : Part} (h : p ∉ [Part.stack]) : mayChange p .ret = false := by
  cases p with
  | stack => simp at h
  | _ => rfl

/-- Settles O52: the entry at SP is the one that the push sets; the frame is that of a completed instruction. -/
theorem callPushesTheNextAddress : Obligations.CallPushesTheNextAddress := by
  intro nnn s h
  have hcomp := completes_of_exec (fatalCause_call_eq_none nnn h) (exec_call nnn h)
  refine ⟨_, exec_call nnn h, rfl, fun k => ?_, toNat_immAddress nnn, hcomp.onlyChanges fun _ => mayChange_call⟩
  simp only [Fin.getElem_fin, Vector.getElem_set, eq_comm]

/-- Settles O53: the pop reads the entry below SP and sets none; the frame is that of a completed instruction. -/
theorem returnPopsTheStack : Obligations.ReturnPopsTheStack := by
  intro s h
  have hcomp := completes_of_exec (fatalCause_ret_eq_none h) (exec_ret h)
  refine ⟨_, exec_ret h, Nat.sub_add_cancel h, fun k hk => ?_, rfl, hcomp.onlyChanges fun _ => mayChange_ret⟩
  simp only [Fin.getElem_fin, ← hk, Nat.add_sub_cancel]

/-- Settles O54: the entry that the return pops, the one below its SP, is the one at the SP of the call, where the call
pushed its next address. -/
theorem callThenReturnContinuesAfterTheCall : Obligations.CallThenReturnContinuesAfterTheCall := by
  intro nnn s h
  obtain ⟨t, hcall, hsp, hentries, -, -⟩ := callPushesTheNextAddress nnn s h
  refine ⟨t, hcall, fun u husp hentry => ?_⟩
  have hdepth : u.sp.val = s.sp.val + 1 := husp ▸ hsp
  obtain ⟨v, hret, hvsp, hvpc, -, -⟩ := returnPopsTheStack u (by omega)
  obtain ⟨k, hk⟩ : ∃ k : Fin 16, k.val = s.sp.val := ⟨⟨s.sp.val, h⟩, rfl⟩
  refine ⟨v, hret, ?_, Fin.ext (by omega)⟩
  calc v.pc = u.stack[k] := hvpc k (by omega)
    _ = t.stack[k] := hentry k hk
    _ = s.pc + 2 := (hentries k).trans (if_pos hk)

end Sys2Proof.Machine
end

section
/-! SUPPORT. The register and ALU instructions (42_alu.md R128 to R141): the frame of an answer that writes registers
and moves PC, and the flags as numbers. -/

namespace Sys2Proof.Machine

/-! ## Answers that write registers and go on at PC + 2 -/

theorem onlyChanges_registers (s : State) (v : Vector Byte 16) (pc : Word) :
    OnlyChanges [.registers] s { s with v := v, pc := pc } := by
  refine ⟨fun p hp => ?_, rfl, rfl, rfl, rfl, rfl, rfl⟩
  cases p with
  | registers => simp at hp
  | stack => exact ⟨rfl, rfl⟩
  | memory => exact fun _ => rfl
  | _ => rfl

theorem reg_setReg_self (s : State) (x : Reg) (b : Byte) : (s.setReg x b).reg x = b := by
  rw [reg_setReg, if_pos rfl]

/-- A meaning that answers the state with one register set and PC + 2. -/
theorem setsRegister_of_exec {i : Instr} {s : State} {x : Reg} {b : Byte} {value : Nat}
    (h : exec i s = .next { s.setReg x b with pc := s.pc + 2 }) (hb : b.toNat = value) : SetsRegister i s x value := by
  refine ⟨_, h, ?_, fun r hr => reg_setReg_of_ne (by simpa using hr), rfl, onlyChanges_registers s _ _⟩
  exact (congrArg BitVec.toNat (reg_setReg_self s x b)).trans hb

/-- A meaning that answers the state with a register and then the flag set, and PC + 2. -/
theorem setsRegisterAndFlag_of_exec {i : Instr} {s : State} {x : Reg} {b : Byte} {c : Bool} {value flag : Nat}
    (h : exec i s = .next { s.setResultAndFlag x b c with pc := s.pc + 2 }) (hb : b.toNat = value)
    (hc : (flagByte c).toNat = flag) : SetsRegisterAndFlag i s x value flag := by
  have hreg := reg_setResultAndFlag s x b c
  refine ⟨_, h, fun hx => ?_, ?_, fun r hr => reg_setResultAndFlag_of_ne (by simpa using hr), rfl,
    onlyChanges_registers s _ _⟩
  · have hx' := (hreg x).trans ((if_neg hx).trans (if_pos rfl))
    exact (congrArg BitVec.toNat hx').trans hb
  · exact (congrArg BitVec.toNat ((hreg vf).trans (if_pos rfl))).trans hc

/-! ## Flags and differences as numbers (R128, R136 to R140) -/

theorem toNat_flagByte (c : Bool) : (flagByte c).toNat = c.toNat := by
  cases c <;> rfl

theorem toNat_flagByte_decide (p : Prop) [Decidable p] : (flagByte (decide p)).toNat = if p then 1 else 0 := by
  rw [toNat_flagByte]
  exact Bool.cond_decide p 1 0

theorem toNat_flagByte_lowBit (a : Byte) : (flagByte (lowBit a)).toNat = a.toNat % 2 := by
  have hbit : (lowBit a).toNat = a.toNat / 1 % 2 := Nat.toNat_testBit a.toNat 0
  rw [toNat_flagByte, hbit, Nat.div_one]

theorem toNat_flagByte_highBit (a : Byte) : (flagByte (highBit a)).toNat = a.toNat / 128 := by
  have hbit : (highBit a).toNat = a.toNat / 128 % 2 := Nat.toNat_testBit a.toNat 7
  rw [toNat_flagByte, hbit]
  omega

theorem toNat_byteSub (a b : Byte) : (a - b).toNat = (a.toNat + 256 - b.toNat) % 256 := by
  rw [BitVec.toNat_sub]
  omega

/-! ## Loads, arithmetic, logic and shifts (R130 to R140) -/

/-- Settles O38: each meaning sets one register to the rule's byte, and the words are those of the encoder. -/
theorem loadsAndLogicWriteTheirResult : Obligations.LoadsAndLogicWriteTheirResult := by
  intro x y nn s
  obtain ⟨-, -, -, -, -, -, -, -, hldImm, haddImm, hldReg, horReg, handReg, hxorReg, -⟩ :=
    encodingsAreThePatterns x y 0 nn 0
  exact ⟨⟨setsRegister_of_exec (exec_ldImm s x nn) rfl, hldImm⟩,
    ⟨setsRegister_of_exec (exec_addImm s x nn) (BitVec.toNat_add _ _), haddImm⟩,
    ⟨setsRegister_of_exec (exec_ldReg s x y) rfl, hldReg⟩,
    ⟨setsRegister_of_exec (exec_orReg s x y) (BitVec.toNat_or _ _), horReg⟩,
    ⟨setsRegister_of_exec (exec_andReg s x y) (BitVec.toNat_and _ _), handReg⟩,
    ⟨setsRegister_of_exec (exec_xorReg s x y) (BitVec.toNat_xor _ _), hxorReg⟩⟩

/-- Settles O39: the sum of two bytes as a number, and the carry as the test of R136. -/
theorem addSetsTheCarry : Obligations.AddSetsTheCarry :=
  fun x y s => setsRegisterAndFlag_of_exec (exec_addReg s x y) (BitVec.toNat_add _ _) (toNat_flagByte_decide _)

/-- Settles O40: one difference of bytes and one test for a borrow, with the operands in either order. -/
theorem subtractionsSetNotBorrow : Obligations.SubtractionsSetNotBorrow := fun x y s =>
  ⟨setsRegisterAndFlag_of_exec (exec_subReg s x y) (toNat_byteSub _ _) (toNat_flagByte_decide _),
    setsRegisterAndFlag_of_exec (exec_subnReg s x y) (toNat_byteSub _ _) (toNat_flagByte_decide _)⟩

/-- Settles O41: a shift by one as a quotient and as a product, and each flag as the bit that the shift moves out. -/
theorem shiftsSetTheBitShiftedOut : Obligations.ShiftsSetTheBitShiftedOut := by
  intro x y s
  have hhalf : (s.reg x >>> 1).toNat = (s.reg x).toNat / 2 := BitVec.toNat_ushiftRight _ _
  have hdouble : (s.reg x <<< 1).toNat = (s.reg x).toNat * 2 % 256 := by
    rw [BitVec.toNat_shiftLeft, Nat.shiftLeft_eq]
  exact ⟨setsRegisterAndFlag_of_exec (exec_shr s x y) hhalf (toNat_flagByte_lowBit _),
    setsRegisterAndFlag_of_exec (exec_shl s x y) hdouble (toNat_flagByte_highBit _)⟩

/-! ## The random byte (R141) -/

theorem mayChange_rnd {x : Reg} {nn : Byte} {p : Part} (h : p ∉ [Part.registers, Part.draws]) :
    mayChange p (.rnd x nn) = false := by
  cases p with
  | registers => simp at h
  | draws => simp at h
  | _ => rfl

theorem writesRegister_rnd {x r : Reg} {nn : Byte} (h : r ∉ [x]) : writesRegister r (.rnd x nn) = false := by
  simpa [writesRegister] using h

/-- Settles O42: the masked byte has no bit outside the mask; the frame is that of a completed instruction. -/
theorem randomByteIsMasked : Obligations.RandomByteIsMasked := by
  intro x nn s
  have hcomp := completes_of_exec rfl (exec_rnd s x nn)
  have hreg := reg_setReg_self s x (s.inputs.rand &&& nn)
  refine ⟨_, exec_rnd s x nn, hreg, fun k hk => ?_, rfl, hcomp.regsBut fun _ => writesRegister_rnd, hcomp.pc,
    hcomp.onlyChanges fun _ => mayChange_rnd⟩
  refine (congrArg (BitVec.getLsbD · k) hreg).trans ?_
  rw [BitVec.getLsbD_and, hk, Bool.and_false]

end Sys2Proof.Machine
end

section
/-! SUPPORT. The index register and memory (43_index_memory.md R160 to R165): the frames of an answer that sets I or
memory, the values of I as numbers, and the byte a store leaves at I + k. -/

namespace Sys2Proof.Machine

/-! ## Answers that set I or memory -/

theorem onlyChanges_index (s : State) (i pc : Word) : OnlyChanges [.index] s { s with i := i, pc := pc } := by
  refine ⟨fun p hp => ?_, rfl, rfl, rfl, rfl, rfl, rfl⟩
  cases p with
  | index => simp at hp
  | stack => exact ⟨rfl, rfl⟩
  | registers => exact fun _ => rfl
  | memory => exact fun _ => rfl
  | _ => rfl

theorem onlyChanges_memory (s : State) (mem : Memory) (pc : Word) :
    OnlyChanges [.memory] s { s with mem := mem, pc := pc } := by
  refine ⟨fun p hp => ?_, rfl, rfl, rfl, rfl, rfl, rfl⟩
  cases p with
  | memory => simp at hp
  | stack => exact ⟨rfl, rfl⟩
  | registers => exact fun _ => rfl
  | _ => rfl

/-! ## The index register (R160 to R162) -/

theorem toNat_add_zext16 (w : Word) (b : Byte) : (w + zext16 b).toNat = (w.toNat + b.toNat) % 0x10000 := by
  rw [BitVec.toNat_add, BitVec.toNat_setWidth_of_le (by decide)]

/-- The glyph's address is at most 0x54B, so it is the exact sum (R162). -/
theorem toNat_glyphAddress (d : Byte) : (glyphAddress d).toNat = 0x050 + 5 * d.toNat :=
  Nat.mod_eq_of_lt (by simp only [Config.fontBase]; omega)

/-- Settles O43: each answers the state with another I and PC + 2, and I as a number is the rule's. -/
theorem indexInstructionsSetTheIndex : Obligations.IndexInstructionsSetTheIndex := fun x nnn s =>
  ⟨⟨_, exec_ldI s nnn, toNat_immAddress nnn, rfl, onlyChanges_index s _ _⟩,
    ⟨_, exec_addI s x, toNat_add_zext16 s.i (s.reg x), rfl, onlyChanges_index s _ _⟩,
    ⟨_, exec_ldF s x, toNat_glyphAddress (s.reg x), rfl, onlyChanges_index s _ _⟩⟩

/-! ## Stores from I (R163, R164) -/

/-- A store leaves its byte `k` at I + k. -/
theorem read_storeAtI (s : State) {bs : List Byte} {k : Nat} (hk : k < bs.length) :
    Memory.read (s.storeAtI bs).mem (s.effective k) = bs[k] := by
  have hoff : s.effective k - s.effective 0 = k := by simp only [State.effective]; omega
  have hin : s.effective 0 ≤ s.effective k ∧ s.effective k < s.effective 0 + bs.length := by
    simp only [State.effective]; omega
  rw [mem_storeAtI, read_writeList, if_pos hin, hoff, List.getD_eq_getElem _ _ hk]

/-- Settles O44: the digits are the quotients and remainders by ten of a number below 256; the frame is that of a store. -/
theorem bcdDigitsAreStored : Obligations.BcdDigitsAreStored := by
  intro x s hm hf
  have hexec := exec_ldB x (failingWrite_none (by omega) hm hf)
  have hstored (k : Nat) (hk : k < 3) :=
    congrArg BitVec.toNat (read_storeAtI s (bs := bcdDigits (s.reg x)) (k := k) hk)
  refine ⟨_, hexec, ⟨(s.reg x).toNat / 100, (s.reg x).toNat / 10 % 10, (s.reg x).toNat % 10, by omega, by omega,
    by omega, by omega, ?_, ?_, ?_⟩, memoryChangesOnlyAtTheStoredBytes _ s _ hexec, rfl, onlyChanges_memory s _ _⟩
  · exact (hstored 0 (by decide)).trans (Nat.mod_eq_of_lt (by omega))
  · exact (hstored 1 (by decide)).trans (Nat.mod_eq_of_lt (by omega))
  · exact (hstored 2 (by decide)).trans (Nat.mod_eq_of_lt (by omega))

/-- Settles O45: the bytes are those that the dump leaves for a fetch; the frame is that of a store. -/
theorem registerDumpStoresThroughVx : Obligations.RegisterDumpStoresThroughVx := by
  intro x s hm hf
  have hexec := exec_ldMemVx (failingWrite_none (by omega) hm hf)
  exact ⟨_, hexec, fun k hk => read_storeAtI_regsThrough s hk, memoryChangesOnlyAtTheStoredBytes _ s _ hexec, rfl,
    onlyChanges_memory s _ _⟩

/-! ## Loads from I (R165) -/

/-- Settles O46: V0..Vx are the loaded bytes and the registers above Vx are kept, by the one law of a load. -/
theorem registerLoadLoadsThroughVx : Obligations.RegisterLoadLoadsThroughVx := by
  intro x s hm
  refine ⟨_, exec_ldVxMem (failingRead_none.2 (.inr hm)), fun k hk => ?_, fun k hk => ?_, rfl,
    onlyChanges_registers s _ _⟩
  · rw [reg_withPc (s.setRegsThrough x s.byteAtI), reg_setRegsThrough, if_pos hk, State.byteAtI]
  · rw [reg_withPc (s.setRegsThrough x s.byteAtI), reg_setRegsThrough, if_neg (by omega)]

/-- Settles O47: the later state has the I of the dump, so its load reads the bytes that the dump stored. -/
theorem dumpThenLoadRestoresRegisters : Obligations.DumpThenLoadRestoresRegisters := by
  intro x s hm hf
  obtain ⟨t, hdump, hstored, -, -, hframe, -⟩ := registerDumpStoresThroughVx x s hm hf
  have hindex : t.i = s.i := hframe .index (by decide)
  refine ⟨t, hdump, fun u hmem hi => ?_⟩
  have heff (k : Nat) : u.effective k = s.effective k := by rw [State.effective, hi, hindex, State.effective]
  obtain ⟨v, hload, hloaded, -⟩ := registerLoadLoadsThroughVx x u ((heff 0).symm ▸ hm)
  refine ⟨v, hload, fun k hk => ?_⟩
  calc v.reg k = Memory.read u.mem (u.effective k.val) := hloaded k hk
    _ = Memory.read t.mem (s.effective k.val) := by rw [hmem, heff]
    _ = s.reg k := hstored k hk

end Sys2Proof.Machine
end

section
/-! SUPPORT. Keys and timers (44_input_timers.md R180 to R186): the two skips by one answer of `keyDown`, the taken key
as a number, and the frames of the two instructions that set a timer. -/

namespace Sys2Proof.Machine

/-! ## The key skips (R180, R181, R186) -/

theorem keyDown_of_le {inp : Inputs} {b : Byte} (h : b.toNat ≤ 15) : keyDown inp b = inp.keys.getLsbD b.toNat :=
  if_pos h

theorem keyDown_outside {inp : Inputs} {b : Byte} (h : 15 < b.toNat) : keyDown inp b = inp.outsideKey :=
  if_neg (Nat.not_le.2 h)

/-- SKP and SKNP by what the key query answers. -/
theorem keySkips_onlyMovePc {x : Reg} {s : State} {down : Bool} (h : keyDown s.inputs (s.reg x) = down) :
    OnlyMovesPc (.skp x) s (if down then s.pc + 4 else s.pc + 2) ∧
    OnlyMovesPc (.sknp x) s (if down then s.pc + 2 else s.pc + 4) := by
  subst h
  exact ⟨onlyMovesPc_of_exec (exec_skp s x), onlyMovesPc_of_exec (exec_sknp s x)⟩

/-- Settles O58: up to 15 the key query answers the port's bit, above 15 the free port value. -/
theorem keySkipsPollTheKey : Obligations.KeySkipsPollTheKey :=
  fun _ _ => ⟨fun h => keySkips_onlyMovePc (keyDown_of_le h), fun h _ => keySkips_onlyMovePc (keyDown_outside h)⟩

/-! ## Waiting for a key (R182) -/

/-- FX0A with a drawn key writes its number. -/
theorem setsRegister_ldVxK {x : Reg} {s : State} {k : Nat} (h : drawnKey s.inputs = some k) :
    SetsRegister (.ldVxK x) s x k := by
  obtain ⟨hk, -⟩ := drawnKey_some h
  exact setsRegister_of_exec (exec_ldVxK_key x h) (Nat.mod_eq_of_lt (by omega))

/-- Settles O59: no key is drawn exactly when none is down, a drawn key is down, and every down key is drawn by some
pick. -/
theorem waitForKeyTakesADownKey : Obligations.WaitForKeyTakesADownKey := by
  intro x s
  refine ⟨fun hnone => exec_ldVxK_wait x (drawnKey_none.2 hnone), fun hsome => ?_, fun k hk hdown => ?_⟩
  · obtain ⟨k, hdraw⟩ := Option.ne_none_iff_exists'.1 (mt drawnKey_none.1 hsome)
    obtain ⟨hk, hdown⟩ := drawnKey_some hdraw
    exact ⟨k, hk, hdown, setsRegister_ldVxK hdraw⟩
  · obtain ⟨pick, hdraw⟩ := drawnKey_reaches hk hdown
    exact ⟨pick, setsRegister_ldVxK hdraw⟩

/-! ## The timer transfers (R183 to R185) -/

theorem mayChange_ldDtVx {x : Reg} {p : Part} (h : p ∉ [Part.delay]) : mayChange p (.ldDtVx x) = false := by
  cases p with
  | delay => simp at h
  | _ => rfl

theorem mayChange_ldStVx {x : Reg} {p : Part} (h : p ∉ [Part.sound]) : mayChange p (.ldStVx x) = false := by
  cases p with
  | sound => simp at h
  | _ => rfl

/-- Settles O60: the transfer to Vx sets one register; the frame of the two others is that of a completed instruction. -/
theorem timerTransfersCopyOneValue : Obligations.TimerTransfersCopyOneValue := by
  intro x s
  have hdelay := completes_of_exec rfl (exec_ldDtVx s x)
  have hsound := completes_of_exec rfl (exec_ldStVx s x)
  exact ⟨setsRegister_of_exec (exec_ldVxDt s x) rfl,
    ⟨_, exec_ldDtVx s x, rfl, hdelay.pc, hdelay.onlyChanges fun _ => mayChange_ldDtVx⟩,
    ⟨_, exec_ldStVx s x, rfl, hsound.pc, hsound.onlyChanges fun _ => mayChange_ldStVx⟩⟩

end Sys2Proof.Machine
end

section
/-! SUPPORT. Fatal conditions (60_exceptions.md R201 to R208): what an instruction, a cycle and a step answer when they
halt the block. -/

namespace Sys2Proof.Machine

/-- Raising a fatal condition halts with the record and changes nothing else (R208). -/
theorem raiseFatal_eq_haltedWith (s : State) (code : FaultCode) (w : Option Word) (ea : Option Nat) :
    s.raiseFatal code w ea = haltedWith s { code := code, word := w, addr := s.pc, ea := ea } := rfl

/-- Settles O16: the two ways an instruction can end, each with its status. -/
theorem fatalConditionsAreExactlyTheTaxonomy : Obligations.FatalConditionsAreExactlyTheTaxonomy := by
  intro i s
  refine ⟨fun code ea hc => exec_fatal hc, fun hc => ?_⟩
  obtain ⟨t, ht, hcomp⟩ := exec_completes hc
  obtain ⟨hhalted, hfault, -⟩ := hcomp.status
  exact ⟨t, ht, hhalted, hfault⟩

/-- Settles O17: the two fatal causes of the stack; the word of the call is the packed one. -/
theorem stackFaultsRecordTheInstruction : Obligations.StackFaultsRecordTheInstruction :=
  ⟨rfl, rfl, fun nnn _ hfull => ⟨_, _, exec_call_overflow nnn hfull, rfl, toNat_packNnn 0x2 nnn, rfl⟩,
    fun _ hempty => ⟨_, exec_ret_underflow hempty, rfl, rfl⟩⟩

/-- An instruction that halts a running block has raised its fatal cause: completing would have kept the status. -/
theorem exec_halts {i : Instr} {s t : State} (hrun : s.halted = false) (h : exec i s = .next t)
    (ht : t.halted = true) : ∃ code ea, t = s.raiseFatal code (some (encode i)) ea := by
  obtain ⟨code, ea, -, hfatal⟩ | ⟨-, hcomp⟩ := exec_cases h
  · exact ⟨code, ea, hfatal⟩
  · obtain ⟨hkept, -⟩ := hcomp.status
    simp [hkept, hrun] at ht

/-- A cycle that halts has raised a fatal condition, with the fetched word where there is one. -/
theorem cycle_halts {s t : State} (hrun : s.halted = false) (h : cycle s = .next t) (ht : t.halted = true) :
    ∃ code w ea, t = s.raiseFatal code w ea ∧
      ((∃ fetched, s.fetch = .ok fetched ∧ s.pc.toNat + 1 < 0x1000 ∧ w = some fetched) ∨
        (0x1000 ≤ s.pc.toNat + 1 ∧ w = none)) := by
  obtain ⟨hpc, hc⟩ | ⟨-, w, -, -, hc⟩ | ⟨hpc, w, i, hf, hd, hc⟩ := cycle_cases s <;> rw [hc] at h
  · cases h
    exact ⟨_, _, _, rfl, .inr ⟨hpc, rfl⟩⟩
  · cases h
    simp [hrun] at ht
  · obtain ⟨code, ea, rfl⟩ := exec_halts hrun h ht
    obtain ⟨hword, -⟩ := encodes_of_decodeWord hd
    exact ⟨code, _, ea, rfl, .inl ⟨w, hf, hpc, congrArg some hword⟩⟩

/-- Settles O15: by what a halting cycle has raised; the boundary before it leaves PC and memory. -/
theorem fatalStepChangesNothingElse : Obligations.FatalStepChangesNothingElse := by
  intro s t hrun h ht
  rw [step_running hrun] at h
  obtain ⟨code, w, ea, rfl, hword⟩ := cycle_halts (s := environment s) hrun h ht
  refine ⟨_, raiseFatal_eq_haltedWith .., rfl, hword.imp_left ?_⟩
  rintro ⟨fetched, hf, hpc, rfl⟩
  have hfetched := (fetch_ok (s := environment s) hpc).symm.trans hf
  cases hfetched
  exact ⟨hpc, rfl⟩

end Sys2Proof.Machine
end

section
/-! SUPPORT. Other values on the input ports before an instruction (10_state.md R36): a fatal one raises the same cause,
and one that completes without polling them answers the same but for the ports. -/

namespace Sys2Proof.Machine

/-- `s` with the values `inp` on the input ports. -/
def State.withInputs (s : State) (inp : Inputs) : State := { s with inputs := inp }

/-- No fatal condition depends on the input ports (R200). -/
theorem fatalCause_withInputs (s : State) (inp : Inputs) (i : Instr) :
    fatalCause (s.withInputs inp) i = fatalCause s i := by
  cases i <;> rfl

/-- An instruction that completes and polls no port completes alike with other values on the ports. -/
theorem exec_withInputs_of_completes {i : Instr} {s t : State} (inp : Inputs) (hskp : ∀ x, i ≠ .skp x)
    (hsknp : ∀ x, i ≠ .sknp x) (hkey : ∀ x, i ≠ .ldVxK x) (hrnd : ∀ x nn, i ≠ .rnd x nn)
    (hc : fatalCause s i = none) (h : exec i s = .next t) : exec i (s.withInputs inp) = .next (t.withInputs inp) := by
  cases i with
  | skp x => exact absurd rfl (hskp x)
  | sknp x => exact absurd rfl (hsknp x)
  | ldVxK x => exact absurd rfl (hkey x)
  | rnd x nn => exact absurd rfl (hrnd x nn)
  | call nnn =>
    have hsp := sp_lt_of_fatalCause_call hc
    cases (exec_call nnn hsp).symm.trans h
    exact exec_call (s := s.withInputs inp) nnn hsp
  | ret =>
    have hsp := sp_pos_of_fatalCause_ret hc
    cases (exec_ret hsp).symm.trans h
    exact exec_ret (s := s.withInputs inp) hsp
  | drw x y n =>
    have hread := failingRead_of_readCause_none hc
    cases (exec_drw x y hread).symm.trans h
    exact exec_drw (s := s.withInputs inp) x y hread
  | ldB x =>
    have hwrite := failingWrite_of_writeCause_none (by omega) hc
    cases (exec_ldB x hwrite).symm.trans h
    exact exec_ldB (s := s.withInputs inp) x hwrite
  | ldMemVx x =>
    have hwrite := failingWrite_of_writeCause_none (by omega) hc
    cases (exec_ldMemVx hwrite).symm.trans h
    exact exec_ldMemVx (s := s.withInputs inp) hwrite
  | ldVxMem x =>
    have hread := failingRead_of_readCause_none hc
    cases (exec_ldVxMem hread).symm.trans h
    exact exec_ldVxMem (s := s.withInputs inp) hread
  | _ =>
    cases h
    rfl

/-- Settles O29: by the two ways an instruction can end. -/
theorem inputsReachOnlyThePollingInstructions : Obligations.InputsReachOnlyThePollingInstructions := by
  intro i s t inp hskp hsknp hkey hrnd h
  obtain ⟨code, ea, hc, rfl⟩ | ⟨hc, -⟩ := exec_cases h
  · exact exec_fatal ((fatalCause_withInputs s inp i).trans hc)
  · exact exec_withInputs_of_completes inp hskp hsknp hkey hrnd hc h

end Sys2Proof.Machine
end

section
/-! SUPPORT. Schedules and the end of a run (60_exceptions.md R206, R208, R213, R221): the halted block, `quit`, a ROM that
is too long, and one tick. -/

namespace Sys2Proof.Machine

/-! ## The halted block (R208, R211, R215) -/

theorem transact_halted (p : Params) {tr : Transaction} {s : State} (h : s.halted = true)
    (hreset : ∀ rom, tr ≠ .reset rom) : transact p tr s = .next s := by
  cases tr with
  | reset rom => exact absurd rfl (hreset rom)
  | step inp => exact stepWith_halted inp h
  | tick => exact congrArg _ (if_pos h)
  | quit => rfl

/-- Settles O26: by induction on the schedule, from each transaction of a halted block. -/
theorem haltLastsUntilReset : Obligations.HaltLastsUntilReset := by
  intro p ts s h hreset
  induction ts with
  | nil => rfl
  | cons tr ts ih =>
    by_cases hq : tr = .quit
    · rw [hq]
      rfl
    · have hhead : ∀ rom, tr ≠ .reset rom := fun rom heq => hreset rom (heq ▸ List.mem_cons_self)
      have htail : ∀ rom, .reset rom ∉ ts := fun rom hmem => hreset rom (List.mem_cons_of_mem tr hmem)
      rw [runSchedule_cons p tr ts s hq, transact_halted p h hhead, thenRun_next, ih htail]

/-! ## The end of a run (R221) -/

/-- Settles O27: by induction on the schedule before the `quit`. -/
theorem nothingHappensAfterQuit : Obligations.NothingHappensAfterQuit := by
  intro p ts us s
  induction ts generalizing s with
  | nil => rfl
  | cons tr ts ih =>
    by_cases hq : tr = .quit
    · rw [hq]
      rfl
    · rw [List.cons_append, runSchedule_cons p tr _ s hq, runSchedule_cons p tr ts s hq, funext ih]

/-! ## A ROM that is too long (R206, R231) -/

theorem runSchedule_reset_oversize (p : Params) {rom : List Byte} (ts : List Transaction) (s : State)
    (h : 3584 < rom.length) : runSchedule p (.reset rom :: ts) s = .fault (.romTooLarge rom.length) := by
  rw [runSchedule_cons p (.reset rom) ts s nofun, transact_reset_oversize p s h]
  rfl

/-- Settles O36: the load rejects the ROM, and a schedule stops at the first answer that is no next state. -/
theorem oversizeRomIsRejected : Obligations.OversizeRomIsRejected :=
  fun p _ ts s h => ⟨loadRom_oversize p h, runSchedule_reset_oversize p ts s h⟩

theorem cycle_next (s : State) : ∃ t, cycle s = .next t := by
  obtain ⟨-, hc⟩ | ⟨-, w, -, -, hc⟩ | ⟨-, w, i, -, -, hc⟩ := cycle_cases s
  · exact ⟨_, hc⟩
  · exact ⟨_, hc⟩
  · rw [hc]
    exact exec_next i s

theorem stepWith_next (inp : Inputs) (s : State) : ∃ t, stepWith inp s = .next t := by
  cases hrun : s.halted with
  | true => exact ⟨s, stepWith_halted inp hrun⟩
  | false =>
    rw [stepWith_running inp hrun]
    exact cycle_next _

/-- Every transaction but the reset with a ROM that is too long has a next state. -/
theorem transact_next (p : Params) {tr : Transaction} (s : State)
    (hsize : ∀ rom, tr = .reset rom → rom.length ≤ 3584) : ∃ t, transact p tr s = .next t := by
  cases tr with
  | reset rom => exact ⟨_, transact_reset p s (hsize rom rfl)⟩
  | step inp => exact stepWith_next inp s
  | tick => exact ⟨_, rfl⟩
  | quit => exact ⟨s, rfl⟩

/-- Settles O28: by induction on the schedule; at its head the ROM is too long, or there is a next state to go on from. -/
theorem schedulesStopOnlyAtAnOversizeRom : Obligations.SchedulesStopOnlyAtAnOversizeRom := by
  intro p ts s
  induction ts generalizing s with
  | nil => exact .inl ⟨s, rfl⟩
  | cons tr ts ih =>
    by_cases hq : tr = .quit
    · subst hq
      exact .inl ⟨s, rfl⟩
    by_cases hsize : ∀ rom, tr = .reset rom → rom.length ≤ 3584
    · obtain ⟨u, hu⟩ := transact_next p s hsize
      rw [runSchedule_cons p tr ts s hq, hu, thenRun_next]
      refine (ih u).imp_right ?_
      rintro ⟨rom, hmem, hfault⟩
      exact ⟨rom, List.mem_cons_of_mem tr hmem, hfault⟩
    · push Not at hsize
      obtain ⟨rom, rfl, hlong⟩ := hsize
      exact .inr ⟨rom, List.mem_cons_self, hlong, runSchedule_reset_oversize p ts s hlong⟩

/-! ## One tick (R213) -/

/-- Settles O32: a running block decrements each timer, and a decrement is the difference that stops at 0. -/
theorem tickDecrementsBothTimers : Obligations.TickDecrementsBothTimers := by
  refine ⟨fun s => ⟨fun hhalted => if_pos hhalted, fun hrun => ?_⟩, rfl, rfl⟩
  rw [tick_eq hrun]
  exact ⟨toNat_decrement s.dt, toNat_decrement s.st, rfl⟩

end Sys2Proof.Machine
end

section
/-! SUPPORT. The reset state, a run of ticks and the ends of a run (70_reset_and_hazards.md R230, R237, R240). -/

namespace Sys2Proof.Machine

/-! ## A run of ticks (R213, R237) -/

/-- Settles O33: the closed form of `k` decrements, in each timer. -/
theorem timersCountDownToZero : Obligations.TimersCountDownToZero := by
  intro p k s hrun
  refine ⟨{ s with dt := countDown k s.dt, st := countDown k s.st }, ?_, toNat_countDown k s.dt,
    toNat_countDown k s.st, rfl⟩
  calc runSchedule p (List.replicate k .tick) s = runSchedule p [] (tick^[k] s) := by
        rw [← runSchedule_ticks, List.append_nil]
    _ = .next { s with dt := countDown k s.dt, st := countDown k s.st } := by rw [ticks_eq k hrun]; rfl

/-! ## The ends of a run (R240) -/

theorem runEnd_halted {s : State} (h : s.halted = true) : runEnd s = some .faulted := if_pos h

/-- At a jump the run is over exactly when the target is the jump itself. -/
theorem runEnd_jp {s : State} {nnn : Imm12} (hrun : s.halted = false) (hf : s.fetch = .ok (encode (.jp nnn))) :
    runEnd s = if immAddress nnn = s.pc then some .final else none := by
  simp [runEnd, hrun, hf, decodeWord_encode (i := .jp nnn) rfl]

/-- At FX0A the run waits exactly while no key is down. -/
theorem runEnd_ldVxK {s : State} {x : Reg} (hrun : s.halted = false) (hf : s.fetch = .ok (encode (.ldVxK x))) :
    runEnd s = if s.inputs.keys = 0 then some .waiting else none := by
  simp [runEnd, hrun, hf, decodeWord_encode (i := .ldVxK x) rfl]

/-- The next word of `s` is a jump to its own address. -/
def State.AtSelfJump (s : State) : Prop :=
  s.halted = false ∧ ∃ nnn : Imm12, immAddress nnn = s.pc ∧ s.fetch = .ok (encode (.jp nnn))

/-- The next word of `s` is FX0A, and the input ports hold no down key. -/
def State.AtKeyWait (s : State) : Prop :=
  s.halted = false ∧ s.inputs.keys = 0 ∧ ∃ x : Reg, s.fetch = .ok (encode (.ldVxK x))

/-- Every end of a run that a state can show. -/
theorem runEnd_cases {s : State} {e : RunEnd} (h : runEnd s = some e) :
    (e = .faulted ∧ s.halted = true) ∨ (e = .final ∧ s.AtSelfJump) ∨ (e = .waiting ∧ s.AtKeyWait) := by
  cases hrun : s.halted with
  | true =>
    rw [runEnd_halted hrun] at h
    exact .inl ⟨(Option.some.inj h).symm, rfl⟩
  | false =>
    cases hf : s.fetch with
    | error ea => simp [runEnd, hrun, hf] at h
    | ok w =>
      simp only [runEnd, hrun, hf, Bool.false_eq_true, if_false] at h
      split at h
      next nnn hd =>
        obtain ⟨rfl, -⟩ := encodes_of_decodeWord hd
        obtain ⟨hself, he⟩ := Option.ite_none_right_eq_some.1 h
        exact .inr (.inl ⟨(Option.some.inj he).symm, hrun, nnn, hself, hf⟩)
      next x hd =>
        obtain ⟨rfl, -⟩ := encodes_of_decodeWord hd
        obtain ⟨hkeys, he⟩ := Option.ite_none_right_eq_some.1 h
        exact .inr (.inr ⟨(Option.some.inj he).symm, hrun, hkeys, x, hf⟩)
      next => cases h

theorem runEnd_eq_faulted {s : State} : runEnd s = some .faulted ↔ s.halted = true := by
  refine ⟨fun h => ?_, runEnd_halted⟩
  obtain ⟨-, hhalted⟩ | ⟨⟨⟩, -⟩ | ⟨⟨⟩, -⟩ := runEnd_cases h
  exact hhalted

theorem runEnd_eq_final {s : State} : runEnd s = some .final ↔ s.AtSelfJump := by
  constructor
  · intro h
    obtain ⟨⟨⟩, -⟩ | ⟨-, hjump⟩ | ⟨⟨⟩, -⟩ := runEnd_cases h
    exact hjump
  · rintro ⟨hrun, nnn, hself, hf⟩
    rw [runEnd_jp hrun hf, if_pos hself]

theorem runEnd_eq_waiting {s : State} : runEnd s = some .waiting ↔ s.AtKeyWait := by
  constructor
  · intro h
    obtain ⟨⟨⟩, -⟩ | ⟨⟨⟩, -⟩ | ⟨-, hwait⟩ := runEnd_cases h
    exact hwait
  · rintro ⟨hrun, hkeys, x, hf⟩
    rw [runEnd_ldVxK hrun hf, if_pos hkeys]

/-- The step transaction with the inputs as they are runs the instruction whose word is next. -/
theorem stepWith_of_fetch {s : State} {i : Instr} (hrun : s.halted = false) (hwf : wellFormed i = true)
    (hf : s.fetch = .ok (encode i)) : stepWith s.inputs s = exec i s :=
  (stepWith_running s.inputs hrun).trans (cycle_of_decodeWord hf (decodeWord_encode hwf))

theorem State.AtSelfJump.stands {s : State} (h : s.AtSelfJump) : stepWith s.inputs s = .next s := by
  obtain ⟨hrun, nnn, hself, hf⟩ := h
  rw [stepWith_of_fetch hrun rfl hf, exec_jp, hself]

theorem State.AtKeyWait.stands {s : State} (h : s.AtKeyWait) : stepWith s.inputs s = .next s := by
  obtain ⟨hrun, hkeys, x, hf⟩ := h
  rw [stepWith_of_fetch hrun rfl hf, exec_ldVxK_wait x (drawnKey_none.2 hkeys)]

theorem immAddress_eq_iff {nnn : Imm12} {pc : Word} : immAddress nnn = pc ↔ nnn.toNat = pc.toNat := by
  rw [← BitVec.toNat_inj, toNat_immAddress]

/-- Settles O37: a jump to its own address and FX0A with no drawn key each answer the state they start from. -/
theorem endOfRunStatesStand : Obligations.EndOfRunStatesStand := by
  refine fun s => ⟨runEnd_eq_faulted, ?_, runEnd_eq_waiting, ?_⟩
  · simp only [runEnd_eq_final, State.AtSelfJump, immAddress_eq_iff]
  · rintro (hfinal | hwaiting)
    · exact (runEnd_eq_final.1 hfinal).stands
    · exact (runEnd_eq_waiting.1 hwaiting).stands

/-! ## The reset state (R76, R230) -/

/-- A store of what unlisted addresses read as leaves the empty memory. -/
theorem writeList_background (a n : Nat) : Memory.writeList [] a ((List.range' a n).map background) = [] := by
  induction n generalizing a with
  | zero => rfl
  | succ n ih =>
    have hwrite : Memory.write [] a (background a) = [] := if_pos rfl
    rw [List.range'_succ, List.map_cons, Memory.writeList, hwrite, ih]

theorem toList_fontData_default : defaultParams.fontData.toList = (List.range' Config.fontBase 80).map background := by
  decide

theorem loadedMemory_default_nil : loadedMemory defaultParams [] = [] := by
  rw [loadedMemory, toList_fontData_default, writeList_background, Memory.writeList]

/-- Settles O35: the default font is what the empty memory of the reset state reads as. -/
theorem resetStateIsTheEmptyRom : Obligations.ResetStateIsTheEmptyRom := by
  refine ⟨?_, rfl, ?_, ?_⟩
  · rw [loadRom_eq defaultParams (Nat.zero_le _), builtState, loadedMemory_default_nil]
    rfl
  · rw [toList_fontData_default, List.range'_eq_map_range, List.map_map]
    rfl
  · rw [toList_fontData_default]
    decide

end Sys2Proof.Machine
end
